-- ==== Sys2Proof/Word.lean ====
section
/-! DEFINITION. The word types of the engine (00_scope.md rules R6, R8) and the fixed groups the spec counts in:
four 64-bit elements (accumulators, lanes, digest words), eight bytes (one lane, one generator block) and eight
seeds. Byte order and bit fields are in Machine/Bits.lean. -/

namespace Sys2Proof

/-- A 64-bit register, lane or command word (R6, R7 `REGW`). -/
abbrev Word := BitVec 64

/-- A byte of the input, of a generator block or of the digest. -/
abbrev Byte := BitVec 8

/-- A seed's 32 bits; `toInt` is the signed value the spec means by `i32` (R10, R22). -/
abbrev Seed := BitVec 32

/-- Four like things, indexed 1 to 4 as the spec indexes accumulators, lanes, blocks and digest words (R9). -/
structure Quad (α : Type) where
  x1 : α
  x2 : α
  x3 : α
  x4 : α
deriving DecidableEq, Repr, Inhabited

/-- Eight bytes, `b0` the one at the lowest index (R10). -/
structure Octet where
  b0 : Byte
  b1 : Byte
  b2 : Byte
  b3 : Byte
  b4 : Byte
  b5 : Byte
  b6 : Byte
  b7 : Byte
deriving DecidableEq, Repr, Inhabited

/-- The seed vector `S[0..7]` (R9, R22). -/
structure SeedVec where
  s0 : Seed
  s1 : Seed
  s2 : Seed
  s3 : Seed
  s4 : Seed
  s5 : Seed
  s6 : Seed
  s7 : Seed
deriving DecidableEq, Repr

/-- Thirty-two bytes as four consecutive groups of eight: a digest (R162) or a generator's output (R142). -/
abbrev Bytes32 := Quad Octet

end Sys2Proof
end

