-- ==== Sys2Proof/Syntax.lean ====
section
/-! DEFINITION. The eight operations of the operation set FHE-1 (30_encoding.md rule R94), one constructor per row
of the opcode table. -/

namespace Sys2Proof

/-- An operation. The only operand in a command word is MIX's unsigned 3-bit seed index (R93). -/
inductive Instr where
  | clr
  | ldchunk
  | fold
  | absorb
  | seed
  | mix (k : BitVec 3)
  | emit
  | run
deriving DecidableEq, Repr

/-- The operation's name in the opcode table (R94, R100). -/
def Instr.mnemonic : Instr → String
  | .clr => "CLR"
  | .ldchunk => "LDCHUNK"
  | .fold => "FOLD"
  | .absorb => "ABSORB"
  | .seed => "SEED"
  | .mix _ => "MIX"
  | .emit => "EMIT"
  | .run => "RUN"

end Sys2Proof
end

