-- ==== Sys2Proof/WellFormed.lean ====
section
/-! DEFINITION. Which command words are well formed (30_encoding.md rule R95, last paragraph): those with
`w & mask = match` for a row of the opcode table. Every term of `Instr` is a legal operation, since MIX's index has
three bits and all eight values are legal (R93); what can be ill formed is a command word. -/

namespace Sys2Proof

/-- One row of the opcode table: the bits that are fixed and their values. -/
structure OpcodeRow where
  mnemonic : String
  pattern : Word
  mask : Word
deriving DecidableEq, Repr

/-- The opcode table (R94, opcode_table.json). -/
def opcodeTable : List OpcodeRow :=
  [ ⟨"CLR",     0x0000000000000001, 0xFFFFFFFFFFFFFFFF⟩,
    ⟨"LDCHUNK", 0x0000000000000002, 0xFFFFFFFFFFFFFFFF⟩,
    ⟨"FOLD",    0x0000000000000003, 0xFFFFFFFFFFFFFFFF⟩,
    ⟨"ABSORB",  0x0000000000000004, 0xFFFFFFFFFFFFFFFF⟩,
    ⟨"SEED",    0x0000000000000005, 0xFFFFFFFFFFFFFFFF⟩,
    ⟨"MIX",     0x0000000000000006, 0xFFFFFFFFFFFFF8FF⟩,
    ⟨"EMIT",    0x0000000000000007, 0xFFFFFFFFFFFFFFFF⟩,
    ⟨"RUN",     0x0000000000000008, 0xFFFFFFFFFFFFFFFF⟩ ]

/-- The row's fixed bits are as the row says. -/
def OpcodeRow.matches (r : OpcodeRow) (w : Word) : Bool := w &&& r.mask == r.pattern

/-- R95: a word is well formed exactly when it matches a row of the opcode table. -/
def wellFormedWord (w : Word) : Bool := opcodeTable.any (·.matches w)

end Sys2Proof
end

