-- ==== Sys2Proof/Decode.lean ====
section
/-! DEFINITION. Decoding a command word (30_encoding.md rules R90 to R97) and encoding an operation. The checks that
depend on the machine's state (BUSY, LENRANGE: R95 cases 1 and 4) are the machine's. -/

namespace Sys2Proof

/-- What a command word decodes to. -/
inductive Decoded where
  /-- a legal operation -/
  | instr (i : Instr)
  /-- R96: `opc` is `0x00` or `0x09 .. 0xFF` -/
  | illop
  /-- R97: an assigned `opc` with a non-zero reserved bit -/
  | rsvd
deriving DecidableEq, Repr

/-- The field `opc`, bits `[7:0]` (R91, R92). -/
def opcField (w : Word) : BitVec 8 := w.extractLsb' 0 8

/-- The field `k`, bits `[10:8]` of a format K word (R92, R93). -/
def kField (w : Word) : BitVec 3 := w.extractLsb' 8 3

/-- The reserved field of a format Z word, bits `[63:8]` (R91). -/
def zeroFieldZ (w : Word) : BitVec 56 := w.extractLsb' 8 56

/-- The reserved field of a format K word, bits `[63:11]` (R92). -/
def zeroFieldK (w : Word) : BitVec 53 := w.extractLsb' 11 53

/-- R95 cases 2 and 3: the opcode is looked at first, then the reserved bits. -/
def decode (w : Word) : Decoded :=
  match (opcField w).toNat with
  | 0x01 => if zeroFieldZ w = 0 then .instr .clr else .rsvd
  | 0x02 => if zeroFieldZ w = 0 then .instr .ldchunk else .rsvd
  | 0x03 => if zeroFieldZ w = 0 then .instr .fold else .rsvd
  | 0x04 => if zeroFieldZ w = 0 then .instr .absorb else .rsvd
  | 0x05 => if zeroFieldZ w = 0 then .instr .seed else .rsvd
  | 0x06 => if zeroFieldK w = 0 then .instr (.mix (kField w)) else .rsvd
  | 0x07 => if zeroFieldZ w = 0 then .instr .emit else .rsvd
  | 0x08 => if zeroFieldZ w = 0 then .instr .run else .rsvd
  | _ => .illop

/-- Format Z: 56 zeros, then the opcode (R91). -/
def formatZ (opc : BitVec 8) : Word := 0#56 ++ opc

/-- Format K: 53 zeros, then `k`, then the opcode (R92). -/
def formatK (k : BitVec 3) (opc : BitVec 8) : Word := 0#53 ++ k ++ opc

/-- The command word of an operation (R94). -/
def encode : Instr → Word
  | .clr => formatZ 0x01
  | .ldchunk => formatZ 0x02
  | .fold => formatZ 0x03
  | .absorb => formatZ 0x04
  | .seed => formatZ 0x05
  | .mix k => formatK k 0x06
  | .emit => formatZ 0x07
  | .run => formatZ 0x08

/-- The operation the decoder reads from a command word whose low `nbits` bits are `w`'s and whose other bits are 0;
a command word is 64 bits long (R90), so a number that needs more bits is no command word. -/
def decodeTableWord (nbits w : Nat) : Option Instr :=
  if w % 2 ^ nbits < 2 ^ 64 then
    match decode (BitVec.ofNat 64 (w % 2 ^ nbits)) with
    | .instr i => some i
    | .illop => none
    | .rsvd => none
  else none

end Sys2Proof
end

