-- ==== Sys2Proof/Config.lean ====
section
/-! DEFINITION. What an implementation fixes (00_scope.md rule R7) and the free values. A machine's configuration is
plain data held beside its state, so a statement for every state holds for every configuration. -/

namespace Sys2Proof

/-- The bound on `LEN_MAX`: it is at most `2^64 - 33`, so below this number (R7). -/
abbrev lenMaxLimit : Nat := 18446744073709551584

/-- The generator the engine is configured with (R7, R142). -/
inductive Generator where
  /-- the spec's default `GEN_SUB55` (R146 to R149) -/
  | sub55
  /-- any other total function of the signed seed, told apart by a number -/
  | custom (id : Nat)
deriving DecidableEq, Repr

/-- The parameters R7 leaves open. `NENG` counts machines, and the model is one (log entry 11). -/
structure Config where
  /-- `LEN_MAX`, with R7's constraint in the type -/
  lenMax : Fin lenMaxLimit
  /-- `GEN` -/
  gen : Generator
  /-- `REG_BASE`, the platform address of the register block; the rules use offsets from it only (log entry 12) -/
  regBase : Nat
deriving DecidableEq, Repr

/-- DESIGN CHOICE (log entries 1, 2 and 12): the configuration of the spec's own programs (95_test_vectors.md section 7),
`GEN = GEN_SUB55` and `LEN_MAX = 1024`, with the register block at address 0. -/
def Config.default : Config where
  lenMax := ⟨1024, by decide⟩
  gen := .sub55
  regBase := 0

/-- A FREE VALUE (R142, U1): the 32 bytes of a configured generator other than the default, of which the model
assumes nothing but that they depend on the signed seed alone. -/
opaque Config.customGen : Nat → Int → Bytes32

/-- A FREE VALUE (R215, U11): whether the draw-th byte the host stored into the input of a RUN in progress is the byte
the loader then reads, rather than the byte that was there before. -/
opaque Config.raceTakesNew : Nat → Bool

/-- A FREE VALUE (R215, D31, U11): the four digest words that a RUN leaves when the host has stored into its input while
it was in progress. -/
opaque Config.racedDigest : Nat → Quad Word

end Sys2Proof
end

