-- ==== Sys2Proof/Machine/Bits.lean ====
section
/-! DEFINITION. Byte order, bit fields and element-wise operations on the fixed groups (00_scope.md rule R10,
20_memory.md rule R67, 41_fold.md rules R121, R125). -/

namespace Sys2Proof.Machine

/-- The same value four times. -/
def quadOf {α : Type} (a : α) : Quad α := ⟨a, a, a, a⟩

/-- Element-wise function on four elements. -/
def quadMap {α β : Type} (f : α → β) (q : Quad α) : Quad β := ⟨f q.x1, f q.x2, f q.x3, f q.x4⟩

/-- The element with index `j + 1`, for `j` from 0 to 3. -/
def quadGet {α : Type} (q : Quad α) : Nat → α
  | 0 => q.x1
  | 1 => q.x2
  | 2 => q.x3
  | _ => q.x4

/-- R121, R125: exclusive OR, element by element. -/
def quadXor (p q : Quad Word) : Quad Word := ⟨p.x1 ^^^ q.x1, p.x2 ^^^ q.x2, p.x3 ^^^ q.x3, p.x4 ^^^ q.x4⟩

/-- The byte with index `n`, for `n` from 0 to 7. -/
def octetGet (o : Octet) : Nat → Byte
  | 0 => o.b0
  | 1 => o.b1
  | 2 => o.b2
  | 3 => o.b3
  | 4 => o.b4
  | 5 => o.b5
  | 6 => o.b6
  | _ => o.b7

/-- Eight consecutive bytes of a byte sequence, from index `o`. -/
def octetAt (f : Nat → Byte) (o : Nat) : Octet :=
  ⟨f o, f (o + 1), f (o + 2), f (o + 3), f (o + 4), f (o + 5), f (o + 6), f (o + 7)⟩

/-- Thirty-two consecutive bytes of a byte sequence, from index `o`. -/
def bytes32At (f : Nat → Byte) (o : Nat) : Bytes32 :=
  ⟨octetAt f o, octetAt f (o + 8), octetAt f (o + 16), octetAt f (o + 24)⟩

/-- Byte `n` of thirty-two, for `n` from 0 to 31. -/
def byteOf (d : Bytes32) (n : Nat) : Byte := octetGet (quadGet d (n / 8)) (n % 8)

/-- `LE64` (R10): byte 0 is the least significant. -/
def le64 (o : Octet) : Word := o.b7 ++ o.b6 ++ o.b5 ++ o.b4 ++ o.b3 ++ o.b2 ++ o.b1 ++ o.b0

/-- `BYTES_LE64` (R10): byte `b` is bits `[8b+7 : 8b]`. -/
def bytesLE64 (v : Word) : Octet :=
  ⟨v.extractLsb' 0 8, v.extractLsb' 8 8, v.extractLsb' 16 8, v.extractLsb' 24 8,
   v.extractLsb' 32 8, v.extractLsb' 40 8, v.extractLsb' 48 8, v.extractLsb' 56 8⟩

/-- Bits `[63:32]` as a signed 32-bit value (R131). -/
def highHalf (v : Word) : Seed := v.extractLsb' 32 32

/-- Bits `[31:0]` as a signed 32-bit value (R131). -/
def lowHalf (v : Word) : Seed := v.extractLsb' 0 32

/-- R131: the eight seeds of four accumulators, high half first (90_conflicts.md C1). -/
def seedsOf (p : Quad Word) : SeedVec :=
  ⟨highHalf p.x1, lowHalf p.x1, highHalf p.x2, lowHalf p.x2,
   highHalf p.x3, lowHalf p.x3, highHalf p.x4, lowHalf p.x4⟩

/-- `S[n]`, for `n` from 0 to 7. -/
def seedGet (v : SeedVec) : Nat → Seed
  | 0 => v.s0
  | 1 => v.s1
  | 2 => v.s2
  | 3 => v.s3
  | 4 => v.s4
  | 5 => v.s5
  | 6 => v.s6
  | _ => v.s7

/-- R48: `{u32(S[2j-2]), u32(S[2j-1])}` for `j` from 1 to 4. -/
def seedWords (v : SeedVec) : Quad Word := ⟨v.s0 ++ v.s1, v.s2 ++ v.s3, v.s4 ++ v.s5, v.s6 ++ v.s7⟩

/-- Eight seeds of value 0. -/
def zeroSeeds : SeedVec := ⟨0, 0, 0, 0, 0, 0, 0, 0⟩

/-- Thirty-two zero bytes. -/
def zeroBytes32 : Bytes32 := quadOf ⟨0, 0, 0, 0, 0, 0, 0, 0⟩

end Sys2Proof.Machine
end

