-- ==== Sys2Proof/Machine/Generator.lean ====
section
/-! DEFINITION. The generator parameter `GEN` and its default `GEN_SUB55` (43_mix.md rules R142 to R151). -/

namespace Sys2Proof.Machine

/-- `MBIG` (R146). -/
def sub55Big : Seed := 2147483647

/-- The correction of R147 and R148: a negative difference gets `MBIG` added, wrapping. -/
def sub55Correct (r : Seed) : Seed := if r.slt 0 then r + sub55Big else r

/-- R147, the fill: from index `i`, `left` more iterations; `mj` and `mk` as there. -/
def sub55Fill : (left i : Nat) → (mj mk : Seed) → List Seed → List Seed
  | 0, _, _, _, A => A
  | left + 1, i, mj, mk, A => sub55Fill left (i + 1) mk (sub55Correct (mj - mk)) (A.set (21 * i % 55) mk)

/-- R147, one of the four passes: from index `i`, `left` more entries, on the partly updated table. -/
def sub55Pass : (left i : Nat) → List Seed → List Seed
  | 0, _, A => A
  | left + 1, i, A =>
    sub55Pass left (i + 1) (A.set i (sub55Correct (A.getD i 0 - A.getD (1 + (i + 30) % 55) 0)))

/-- R147: the absolute value of the seed, with the most negative seed mapped to `MBIG`. -/
def sub55Sub (s : Int) : Nat := if s = -2147483648 then 2147483647 else s.natAbs

/-- R147: the table `A[0..55]` after seeding; `MSEED = 161803398` (R146). -/
def sub55Table (s : Int) : List Seed :=
  let mj : Seed := BitVec.ofInt 32 (161803398 - sub55Sub s)
  let A := sub55Fill 54 1 mj 1 ((List.replicate 56 0).set 55 mj)
  sub55Pass 55 1 (sub55Pass 55 1 (sub55Pass 55 1 (sub55Pass 55 1 A)))

/-- R148: the next of the cyclic indices 1 to 55. -/
def sub55Next (n : Nat) : Nat := if n + 1 ≥ 56 then 1 else n + 1

/-- R148: `MBIG` itself is replaced by `MBIG - 1`. -/
def sub55Clip (r : Seed) : Seed := if r = sub55Big then r - 1 else r

/-- R148 and R149: `left` more samples, one byte each, from the table and the indices `n` and `p`. -/
def sub55Bytes : (left n p : Nat) → List Seed → List Byte
  | 0, _, _, _ => []
  | left + 1, n, p, A =>
    let r := sub55Correct (sub55Clip (A.getD (sub55Next n) 0 - A.getD (sub55Next p) 0))
    r.setWidth 8 :: sub55Bytes left (sub55Next n) (sub55Next p) (A.set (sub55Next n) r)

/-- `GEN_SUB55` (R149). -/
def genSub55 (s : Int) : Bytes32 :=
  let B := sub55Bytes 32 0 21 (sub55Table s)
  bytes32At (fun t => B.getD t 0) 0

/-- `GEN` (R142): the 32 bytes the configured generator yields for a signed seed, block `br_j` the `j`-th group. -/
def generate (g : Generator) (s : Int) : Bytes32 :=
  match g with
  | .sub55 => genSub55 s
  | .custom id => Config.customGen id s

/-- `MIXWORD` (R144): the four blocks as little-endian words; the seed is passed as a signed value (R132). -/
def mixWords (g : Generator) (s : Seed) : Quad Word := quadMap le64 (generate g s.toInt)

end Sys2Proof.Machine
end

