-- ==== Sys2Proof/Machine/Digest.lean ====
section
/-! DEFINITION. The pure function the engine computes (41_fold.md rule R123, 45_run.md rule R171), on a byte sequence
and a generator, without the machine. -/

namespace Sys2Proof.Machine

/-- The number of chunks of an input of `n` bytes (R66): `ceil(n/32)`. -/
def chunkCount (n : Nat) : Nat := (n + 31) / 32

/-- The byte sequence extended by zeros beyond its end (R63, R123). -/
def zeroExtended (x : List Byte) (a : Nat) : Byte := x.getD a 0

/-- The four lanes of the chunk at offset `o` of a byte sequence given by its bytes (R111). -/
def lanesAt (f : Nat → Byte) (o : Nat) : Quad Word := quadMap le64 (bytes32At f o)

/-- The exclusive OR of the lanes of the first `n` chunks. -/
def foldChunks (f : Nat → Byte) : Nat → Quad Word
  | 0 => quadOf 0
  | n + 1 => quadXor (foldChunks f n) (lanesAt f (32 * n))

/-- `FOLDSTATE` (R123). -/
def foldState (x : List Byte) : Quad Word := foldChunks (zeroExtended x) (chunkCount x.length)

/-- The accumulators after the first `n` mixing iterations on `F`, the seeds taken from `F` once (R145, R171). -/
def mixRounds (g : Generator) (F : Quad Word) : Nat → Quad Word
  | 0 => F
  | n + 1 => quadXor (mixRounds g F n) (mixWords g (seedGet (seedsOf F) n))

/-- The digest's bytes of four accumulators (R161, R162). -/
def digestBytes (q : Quad Word) : Bytes32 := quadMap bytesLE64 q

/-- `digest` (R171). -/
def digest (g : Generator) (x : List Byte) : Bytes32 := digestBytes (mixRounds g (foldState x) 8)

end Sys2Proof.Machine
end

