-- ==== Sys2Proof/Machine/State.lean ====
section
/-! DEFINITION. The state of one engine instance and of its surroundings, the outcomes, and the state after reset
(10_state.md section 1 and rules R20 to R33, R55). -/

namespace Sys2Proof.Machine

/-- R27: the five values of `PHASE`; its codes are in Machine/Flags.lean. Values 5 to 7 are never reached and are not
representable (log entry 7). -/
inductive Phase where
  | idle
  | fold
  | seed
  | mix
  | emit
deriving DecidableEq, Repr

/-- R191: the codes `ERR` can hold, 0 to 5; codes 6 to 15 are never recorded (log entry 7). -/
inductive ErrCode where
  | none
  | illop
  | rsvd
  | busy
  | lenRange
  | access
deriving DecidableEq, Repr

/-- Sparse bytes by index, indices strictly rising; an index not listed has never been written. -/
abbrev Memory := List Host.Cell

/-- One turn of the total order of steps (R75): a move of the host or of the platform (R221), or the sequencer's. -/
inductive Turn where
  /-- the host reads `size` bytes at offset `off` of the register block (R40) -/
  | read (off size : Nat)
  /-- the host writes `v` with a write of `size` bytes at offset `off` of the register block (R40) -/
  | write (off size : Nat) (v : Word)
  /-- `MemWrite`: the host writes bytes of `IN` from index `a` on (R11, R60) -/
  | store (a : Nat) (bytes : List Byte)
  /-- the platform resets the engine (R210) -/
  | reset
  /-- the sequencer takes its step, if it has one (R173) -/
  | sequencer
deriving DecidableEq, Repr

/-- A byte of `IN[0..LEN-1]` that the host stored during a RUN (R215): its index, the byte that was there before (none:
never written), and the number of the free choice between the two. -/
structure Race where
  addr : Nat
  old : Option Byte
  draw : Nat
deriving DecidableEq, Repr

/-- Everything the engine holds (10_state.md section 1), its input memory, its configuration, and the model's own
record of what the host does and gets. -/
structure State where
  /-- `P[1..4]` (R20) -/
  acc : Quad Word
  /-- `L[1..4]` (R21) -/
  lanes : Quad Word
  /-- `S[0..7]` (R22) -/
  seeds : SeedVec
  /-- `D[0..31]` (R23) -/
  dig : Bytes32
  /-- `DVALID` (R23) -/
  dvalid : Bool
  /-- `LEN` (R24) -/
  len : Word
  /-- `OFF` (R25) -/
  off : Word
  /-- `K` (R26) -/
  k : BitVec 4
  /-- `PHASE` (R27) -/
  phase : Phase
  /-- `ERR` (R28) -/
  err : ErrCode
  /-- `IN` (R60) -/
  input : Memory
  /-- the machine's configuration (R7); no step changes it -/
  cfg : Config
  /-- the MODEL's own: the turns still to come, first one first (R75, R221) -/
  schedule : List Turn
  /-- the MODEL's own: what the host's latest register read returned (R221) -/
  reply : Option Word
  /-- the MODEL's own: the host's stores into the input of the latest RUN while it was in progress, latest first (R215) -/
  races : List Race
  /-- the MODEL's own: how many free choices have been drawn (R215) -/
  draws : Nat
deriving DecidableEq, Repr

/-- Why a run of the model stops. -/
inductive Fault where
  /-- The chunk loader reads a byte of `IN` that the host never wrote (R61, R204 e, U12): raised by LDCHUNK, ABSORB and
  the sequencer's fold step. Safe: the engine would go on with an unspecified byte. -/
  | unwrittenInput
  /-- The host writes an index of `IN` at or above `LEN_MAX`, which does not exist (R60): raised by the host's store.
  Safe. -/
  | noSuchInputByte
deriving DecidableEq, Repr

/-- What the model gives no meaning. -/
inductive Refusal where
  /-- An operation that `exec` has no meaning for; none is left. Safe. -/
  | notModelled (mnemonic : String)
  /-- A sequencer turn in phase MIX with `K > 8`, a state outside the spec (U10): raised by the mix step. Safe. -/
  | mixCounterOutOfRange
deriving DecidableEq, Repr

/-- The outcome of an operation or of a step. -/
abbrev Result := Host.Outcome State Fault Refusal

/-- R55: every register 0 and `PHASE = IDLE`, for a machine of the given configuration. The input memory lists nothing:
no byte has been written. The schedule is empty and nothing has been read (log entries 3 and 4). -/
def State.resetWith (cfg : Config) : State where
  acc := ⟨0, 0, 0, 0⟩
  lanes := ⟨0, 0, 0, 0⟩
  seeds := ⟨0, 0, 0, 0, 0, 0, 0, 0⟩
  dig := ⟨⟨0, 0, 0, 0, 0, 0, 0, 0⟩, ⟨0, 0, 0, 0, 0, 0, 0, 0⟩, ⟨0, 0, 0, 0, 0, 0, 0, 0⟩, ⟨0, 0, 0, 0, 0, 0, 0, 0⟩⟩
  dvalid := false
  len := 0
  off := 0
  k := 0
  phase := .idle
  err := .none
  input := []
  cfg := cfg
  schedule := []
  reply := none
  races := []
  draws := 0

/-- The machine right after reset, in the default configuration. -/
def State.reset : State := State.resetWith Config.default

end Sys2Proof.Machine
end

