-- ==== Sys2Proof/Machine/Ops.lean ====
section
/-! DEFINITION. The named operations over the input memory and the engine's registers that the meanings share. What
stands in an exception's place here is the reject of 60_exceptions.md rule R192. -/

namespace Sys2Proof.Machine

/-- The byte at index `a`, or none where nothing has been written. -/
def Memory.read : Memory → Nat → Option Byte
  | [], _ => none
  | c :: m, a => if c.1 = a then some c.2 else Memory.read m a

/-- Writes the byte at index `a`, keeping the indices strictly rising. -/
def Memory.write : Memory → Nat → Byte → Memory
  | [], a, v => [(a, v)]
  | c :: m, a, v =>
    if a < c.1 then (a, v) :: c :: m
    else if c.1 = a then (a, v) :: m
    else c :: Memory.write m a v

/-- The canonical form: indices strictly rising. (An unlisted index has no value, so no entry can equal it.) -/
abbrev Memory.wf (m : Memory) : Prop := m.Pairwise (fun c d => c.1 < d.1)

/-- `BUSY` (R29). -/
def State.busy (s : State) : Bool := decide (s.phase ≠ .idle)

/-- `reject(c)` (R192): nothing changes but `ERR`, and `ERR` only if no error is recorded. -/
def State.reject (s : State) (c : ErrCode) : State := { s with err := if s.err = .none then c else s.err }

/-- What a register read returns to the host (R221). -/
def State.answer (s : State) (v : Word) : State := { s with reply := some v }

/-- The turns still to come. -/
def State.withSchedule (s : State) (ts : List Turn) : State := { s with schedule := ts }

/-- `LEN <- v` (R44). -/
def State.setLen (s : State) (v : Word) : State := { s with len := v }

/-- `OFF <- v` (R45). -/
def State.setOff (s : State) (v : Word) : State := { s with off := v }

/-- What CLR clears (R110). -/
def State.clearCall (s : State) : State :=
  { s with acc := quadOf 0, lanes := quadOf 0, seeds := zeroSeeds, dig := zeroBytes32, dvalid := false, off := 0,
           k := 0, err := .none }

/-- `PHASE <- ph`. -/
def State.enter (s : State) (ph : Phase) : State := { s with phase := ph }

/-- The acceptance step of RUN (R172); no store has raced with the new run yet (R215). -/
def State.startRun (s : State) : State := { s.clearCall with phase := .fold, races := [] }

/-- `L[j] <- ws[j]` (R112). -/
def State.loadLanes (s : State) (ws : Quad Word) : State := { s with lanes := ws }

/-- `P[j] <- P[j] ^ ws[j]` (R120, R141). -/
def State.xorAcc (s : State) (ws : Quad Word) : State := { s with acc := quadXor s.acc ws }

/-- A chunk with lanes `ws` loaded, folded and passed over (R122, R174). -/
def State.absorbLanes (s : State) (ws : Quad Word) : State :=
  { s with lanes := ws, acc := quadXor s.acc ws, off := s.off + 32 }

/-- The seeds taken from the accumulators (R131). -/
def State.takeSeeds (s : State) : State := { s with seeds := seedsOf s.acc }

/-- `K <- n` (R175, R176). -/
def State.setK (s : State) (n : BitVec 4) : State := { s with k := n }

/-- The digest written from the accumulators (R161). -/
def State.emitDigest (s : State) : State := { s with dig := digestBytes s.acc, dvalid := true }

/-- One mixing iteration driven by `S[n]` (R141, R176). -/
def State.mixSeed (s : State) (n : Nat) : State := s.xorAcc (mixWords s.cfg.gen (seedGet s.seeds n))

/-- Reset (R210): every register at its reset value (R55); the input memory, the configuration and the host's side are
not the engine's and stay. -/
def State.resetEngine (s : State) : State :=
  { State.resetWith s.cfg with input := s.input, schedule := s.schedule, reply := s.reply, draws := s.draws }

/-- R215: a store of index `a` races when a RUN is in progress and `a` is below `LEN`. -/
def State.storeRaces (s : State) (a : Nat) : Bool := s.busy && decide (a < s.len.toNat)

/-- The host writes one byte of `IN`. A racing store is recorded, with the byte that was there and the next free choice. -/
def State.storeByte (s : State) (a : Nat) (v : Byte) : State :=
  { s with
    input := s.input.write a v
    races := if s.storeRaces a then ⟨a, s.input.read a, s.draws⟩ :: s.races else s.races
    draws := if s.storeRaces a then s.draws + 1 else s.draws }

/-- The host writes consecutive bytes of `IN` from index `a` on (R11 `MemWrite`). -/
def State.storeBytes (s : State) (a : Nat) : List Byte → State
  | [] => s
  | v :: vs => State.storeBytes (s.storeByte a v) (a + 1) vs

/-- R215, U11: the byte the loader reads at index `a` when the byte in memory is `cur` and the given stores, latest
first, have raced with the RUN: the new byte or the old one, by the store's free choice. -/
def raceView : List Race → Nat → Option Byte → Option Byte
  | [], _, cur => cur
  | r :: rs, a, cur =>
    if r.addr = a then (if Config.raceTakesNew r.draw then cur else raceView rs a r.old) else raceView rs a cur

/-- The byte of `IN` that LDCHUNK and ABSORB read: one atomic step, with which no store can race (R215). -/
def State.commandByte (s : State) (a : Nat) : Option Byte := s.input.read a

/-- The byte of `IN` that a RUN in progress reads. -/
def State.runByte (s : State) (a : Nat) : Option Byte := raceView s.races a (s.input.read a)

/-- R215, U11: a RUN with which a store has raced, whether before or after the loader read the byte, leaves no defined
digest: the digest words in the accumulators (R20, R180) are a free value, drawn when the RUN emits. Log entry 6. -/
def State.settleRaces (s : State) : State :=
  match s.races with
  | [] => s
  | _ :: _ => { s with acc := Config.racedDigest s.draws, draws := s.draws + 1 }

/-- The padded view (R63) of an input of `n` bytes: no read at or beyond `n` (R64); none where the byte has no value. -/
def padded (byteAt : Nat → Option Byte) (n a : Nat) : Option Byte := if a < n then byteAt a else some 0

/-- The four lanes of the chunk at index `o` (R111); none when a byte of it has no value. -/
def chunkLanes (byteAt : Nat → Option Byte) (n o : Nat) : Option (Quad Word) :=
  if (List.range 32).all (fun i => (padded byteAt n (o + i)).isSome) then
    some (lanesAt (fun a => (padded byteAt n a).getD 0) o)
  else none

/-- Loads the chunk at `OFF` and goes on with its lanes; a byte nothing has written stops the model (R61). -/
def withChunk (s : State) (byteAt : Nat → Option Byte) (next : Quad Word → State) : Result :=
  match chunkLanes byteAt s.len.toNat s.off.toNat with
  | some ws => .next (next ws)
  | none => .fault .unwrittenInput

/-- R95 case 1: while BUSY a command is rejected, else it is carried out. -/
def whenIdle (s : State) (r : Result) : Result := if s.busy then .next (s.reject .busy) else r

/-- R95 case 4, R193: an operation that reads the input memory is rejected when `LEN > LEN_MAX`. -/
def whenLenFits (s : State) (r : Result) : Result :=
  if s.cfg.lenMax.val < s.len.toNat then .next (s.reject .lenRange) else r

end Sys2Proof.Machine
end

