-- ==== Sys2Proof/Machine/Emit.lean ====
section
/-! DEFINITION. EMIT (44_emit.md). -/

namespace Sys2Proof.Machine

/-- EMIT (R161). -/
def execEmit (s : State) : Result := whenIdle s (.next s.emitDigest)

end Sys2Proof.Machine
end

