-- ==== Sys2Proof/Machine/Fold.lean ====
section
/-! DEFINITION. FOLD and ABSORB (41_fold.md). -/

namespace Sys2Proof.Machine

/-- FOLD (R120). -/
def execFold (s : State) : Result := whenIdle s (.next (s.xorAcc s.lanes))

/-- ABSORB (R122). -/
def execAbsorb (s : State) : Result := whenIdle s (whenLenFits s (withChunk s s.commandByte s.absorbLanes))

end Sys2Proof.Machine
end

