-- ==== Sys2Proof/Machine/Load.lean ====
section
/-! DEFINITION. CLR and LDCHUNK (40_init_and_load.md). -/

namespace Sys2Proof.Machine

/-- CLR (R110). -/
def execClr (s : State) : Result := whenIdle s (.next s.clearCall)

/-- LDCHUNK (R112). -/
def execLdchunk (s : State) : Result := whenIdle s (whenLenFits s (withChunk s s.commandByte s.loadLanes))

end Sys2Proof.Machine
end

