-- ==== Sys2Proof/Machine/Mix.lean ====
section
/-! DEFINITION. MIX (43_mix.md). -/

namespace Sys2Proof.Machine

/-- MIX k (R141). It neither reads nor writes `K`. -/
def execMix (k : BitVec 3) (s : State) : Result := whenIdle s (.next (s.mixSeed k.toNat))

end Sys2Proof.Machine
end

