-- ==== Sys2Proof/Machine/Run.lean ====
section
/-! DEFINITION. RUN and the sequencer (45_run.md rules R172 to R177). -/

namespace Sys2Proof.Machine

/-- RUN, its acceptance step (R172); the sequencer does the rest. -/
def execRun (s : State) : Result := whenIdle s (whenLenFits s (.next s.startRun))

/-- The sequencer's step in phase FOLD (R174). -/
def sequencerFold (s : State) : Result :=
  if s.off.toNat < s.len.toNat then withChunk s s.runByte s.absorbLanes else .next (s.enter .seed)

/-- The sequencer's step in phase SEED (R175). -/
def sequencerSeed (s : State) : Result := .next ((s.takeSeeds.setK 0).enter .mix)

/-- The sequencer's step in phase MIX (R176). A value of `K` above 8 is outside the spec (U10). -/
def sequencerMix (s : State) : Result :=
  if s.k.toNat < 8 then .next ((s.mixSeed s.k.toNat).setK (s.k + 1))
  else if s.k = 8 then .next (s.enter .emit)
  else .refused .mixCounterOutOfRange

/-- The sequencer's step in phase EMIT (R177); with racing stores the emitted digest has no defined value (R215). -/
def sequencerEmit (s : State) : Result := .next (s.settleRaces.emitDigest.enter .idle)

/-- The sequencer's turn (R173): in phase IDLE it has no step and nothing changes. -/
def sequencerTurn (s : State) : Result :=
  match s.phase with
  | .idle => .next s
  | .fold => sequencerFold s
  | .seed => sequencerSeed s
  | .mix => sequencerMix s
  | .emit => sequencerEmit s

end Sys2Proof.Machine
end

