-- ==== Sys2Proof/Machine/Seed.lean ====
section
/-! DEFINITION. SEED (42_seed.md). -/

namespace Sys2Proof.Machine

/-- SEED (R131). It does not touch `K`. -/
def execSeed (s : State) : Result := whenIdle s (.next s.takeSeeds)

end Sys2Proof.Machine
end

