-- ==== Sys2Proof/Machine/Dispatch.lean ====
section
/-! DEFINITION. One arm per operation: the step of the write of its command word (30_encoding.md rule R94). -/

namespace Sys2Proof.Machine

def exec (i : Instr) (s : State) : Host.Outcome State Fault Refusal :=
  match i with
  | .clr => Sys2Proof.Machine.execClr s
  | .ldchunk => Sys2Proof.Machine.execLdchunk s
  | .fold => Sys2Proof.Machine.execFold s
  | .absorb => Sys2Proof.Machine.execAbsorb s
  | .seed => Sys2Proof.Machine.execSeed s
  | .mix k => Sys2Proof.Machine.execMix k s
  | .emit => Sys2Proof.Machine.execEmit s
  | .run => Sys2Proof.Machine.execRun s

end Sys2Proof.Machine
end

