-- ==== Sys2Proof/Machine/Flags.lean ====
section
/-! DEFINITION. The status bits a program can test (10_state.md rules R29, R31, R43). The engine has no arithmetic
condition codes, so no operation computes a flag from its result. -/

namespace Sys2Proof.Machine

/-- The value of `PHASE` (R27). -/
def Phase.code : Phase → BitVec 3
  | .idle => 0
  | .fold => 1
  | .seed => 2
  | .mix => 3
  | .emit => 4

/-- The value of `ERR` (R191). -/
def ErrCode.code : ErrCode → BitVec 4
  | .none => 0
  | .illop => 1
  | .rsvd => 2
  | .busy => 3
  | .lenRange => 4
  | .access => 5

/-- The `STATUS` register (R43), reserved fields written out as zeros. -/
def State.statusWord (s : State) : Word :=
  0#44 ++ s.err.code ++ 0#4 ++ s.k ++ 0#3 ++ s.phase.code ++ BitVec.ofBool s.dvalid ++ BitVec.ofBool s.busy

end Sys2Proof.Machine
end

