-- ==== Sys2Proof/Machine/Operands.lean ====
section
/-! DEFINITION. The register block as the host addresses it (10_state.md rules R40 to R50). An operation has no operand
but MIX's seed index, which selects `S[k]` by `seedGet`; what else it reads is in the registers. -/

namespace Sys2Proof.Machine

/-- The registers of the block (R41); `j` counts from 0, so `p 0` is `P1`. -/
inductive Reg where
  | cmd
  | status
  | len
  | off
  | p (j : Fin 4)
  | l (j : Fin 4)
  | sv (j : Fin 4)
  | d (j : Fin 4)
deriving DecidableEq, Repr

/-- The register map (R41). -/
def regMap : List (Nat × Reg) :=
  [ (0x00, .cmd), (0x08, .status), (0x10, .len), (0x18, .off),
    (0x20, .p 0), (0x28, .p 1), (0x30, .p 2), (0x38, .p 3),
    (0x40, .l 0), (0x48, .l 1), (0x50, .l 2), (0x58, .l 3),
    (0x60, .sv 0), (0x68, .sv 1), (0x70, .sv 2), (0x78, .sv 3),
    (0x80, .d 0), (0x88, .d 1), (0x90, .d 2), (0x98, .d 3) ]

/-- The platform address of the register at offset `off` of the block (R7 `REG_BASE`, R40, R71). -/
def regAddress (c : Config) (off : Nat) : Nat := c.regBase + off

/-- The offset that a platform address reaches; none below the block, where no access is routed to the engine. -/
def addressedOffset (c : Config) (addr : Nat) : Option Nat :=
  if c.regBase ≤ addr then some (addr - c.regBase) else none

/-- The register that a well-formed access reaches (R40): 8 bytes at a listed offset. A misaligned offset and one of
`0xA0` or more are not listed. -/
def accessedReg (off size : Nat) : Option Reg := if size = 8 then regMap.lookup off else none

/-- What a read of the register returns (R42 to R49). -/
def State.readReg (s : State) : Reg → Word
  | .cmd => 0
  | .status => s.statusWord
  | .len => s.len
  | .off => s.off
  | .p j => quadGet s.acc j
  | .l j => quadGet s.lanes j
  | .sv j => quadGet (seedWords s.seeds) j
  | .d j => le64 (quadGet s.dig j)

/-- A host read (R42 to R51): no effect but the value returned; a bad access returns 0 and rejects (R50). -/
def hostRead (off size : Nat) (s : State) : State :=
  match accessedReg off size with
  | some r => s.answer (s.readReg r)
  | none => (s.reject .access).answer 0

/-- A write of `LEN` or `OFF` (R44, R45): while BUSY it changes nothing and rejects. -/
def writeWhenIdle (s : State) (written : State) : State := if s.busy then s.reject .busy else written

end Sys2Proof.Machine
end

