-- ==== Sys2Proof/Machine/Turns.lean ====
section
/-! DEFINITION. What each turn does (70_reset_and_hazards.md rule R221): the host's accesses, its stores, the platform's
reset, and the sequencer's turn. -/

namespace Sys2Proof.Machine

/-- A word written to `CMD` (R42, R95): BUSY first, then what the word decodes to. -/
def command (w : Word) (s : State) : Result :=
  if s.busy then .next (s.reject .busy)
  else
    match decode w with
    | .illop => .next (s.reject .illop)
    | .rsvd => .next (s.reject .rsvd)
    | .instr i => exec i s

/-- A host write (R42, R44, R45, R50). A write that reaches no writable register is a bad access, checked first (R194). -/
def hostWrite (off size : Nat) (v : Word) (s : State) : Result :=
  match accessedReg off size with
  | some .cmd => command v s
  | some .len => .next (writeWhenIdle s (s.setLen v))
  | some .off => .next (writeWhenIdle s (s.setOff v))
  | some .status => .next (s.reject .access)
  | some (.p _) => .next (s.reject .access)
  | some (.l _) => .next (s.reject .access)
  | some (.sv _) => .next (s.reject .access)
  | some (.d _) => .next (s.reject .access)
  | none => .next (s.reject .access)

/-- The host writes bytes of `IN` (R60, R11): an index at or above `LEN_MAX` does not exist, and a store that names one
writes nothing. -/
def hostStore (a : Nat) (bytes : List Byte) (s : State) : Result :=
  if bytes.length = 0 ∨ a + bytes.length ≤ s.cfg.lenMax.val then .next (s.storeBytes a bytes) else .fault .noSuchInputByte

/-- One turn of the total order of steps (R75). -/
def takeTurn (t : Turn) (s : State) : Result :=
  match t with
  | .read off size => .next (hostRead off size s)
  | .write off size v => hostWrite off size v s
  | .store a bytes => hostStore a bytes s
  | .reset => .next s.resetEngine
  | .sequencer => sequencerTurn s

/-- The next turn: the schedule's first, taken off it; when the host has no move left the sequencer goes on (R173,
R219), and an idle engine waits (R204 c, f). -/
def nextTurn (s : State) : Result :=
  match s.schedule with
  | [] => sequencerTurn s
  | t :: ts => takeTurn t (s.withSchedule ts)

/-- The host's next move is to write the command word `w` to `CMD`. -/
def State.withCommand (s : State) (w : Word) : State := s.withSchedule (.write 0x00 8 w :: s.schedule)

end Sys2Proof.Machine
end

