-- ==== Sys2Proof/Machine/Step.lean ====
section
/-! DEFINITION. One step of the machine (00_scope.md rule R12, 20_memory.md rule R75). -/

namespace Sys2Proof.Machine

/-- One step: the next turn of the total order. -/
def step (s : State) : Host.Outcome State Fault Refusal := nextTurn s

/-- The engine fetches no instructions (R30): an operation comes to run when the host writes its word to `CMD`, so the
instruction is placed as the host's next move. Log entry 10. -/
def State.withFetchWord (s : State) (nbits w : Nat) : State := s.withCommand (BitVec.ofNat 64 (w % 2 ^ nbits))

end Sys2Proof.Machine
end

