-- ==== Sys2Proof/Safety.lean ====
section
/-! DEFINITION. The words the statements are written in: the padded view and the lanes as the spec writes them, the
input of a call, the invariant of the machine and the progress of a RUN. -/

namespace Sys2Proof.Machine

/-- `PB(a)` (R63), where the bytes of `IN` below `LEN` are written. -/
def State.pb (s : State) (a : Nat) : Byte := if a < s.len.toNat then (s.input.read a).getD 0 else 0

/-- `LANE(j, o)` (R111), `j` from 1 to 4. -/
def State.lane (s : State) (j o : Nat) : Word :=
  le64 ⟨s.pb (o + 8 * (j - 1) + 0), s.pb (o + 8 * (j - 1) + 1), s.pb (o + 8 * (j - 1) + 2), s.pb (o + 8 * (j - 1) + 3),
        s.pb (o + 8 * (j - 1) + 4), s.pb (o + 8 * (j - 1) + 5), s.pb (o + 8 * (j - 1) + 6), s.pb (o + 8 * (j - 1) + 7)⟩

/-- The bytes of `IN` that the chunk at `OFF` takes in have been written (R61, R70, R213). -/
def State.ChunkWritten (s : State) : Prop :=
  ∀ a, s.off.toNat ≤ a → a < s.off.toNat + 32 → a < s.len.toNat → (s.input.read a).isSome = true

/-- The input of a call, `IN[0..LEN-1]`, has been written (R61, R213). -/
def State.InputWritten (s : State) : Prop := ∀ a, a < s.len.toNat → (s.input.read a).isSome = true

/-- The input of a call as a byte sequence (R60). -/
def State.inputBytes (s : State) : List Byte := (List.range s.len.toNat).map (fun a => (s.input.read a).getD 0)

/-- The lengths an operation that reads memory accepts (R193). -/
def State.LenFits (s : State) : Prop := s.len.toNat ≤ s.cfg.lenMax.val

/-- What a format Z operation's rule says of its encoding and its rejections (R91, R95, R97, R110 and the like): the
command word, code 3 while BUSY, code 2 for a word with its opcode and a reserved bit set. -/
def FormatZRule (opc : BitVec 8) (i : Instr) : Prop :=
  encode i = 0#56 ++ opc ∧ decode (0#56 ++ opc) = .instr i ∧
  (∀ s : State, s.phase ≠ .idle → exec i s = .next (s.reject .busy)) ∧
  (∀ (s : State) (w : Word), s.phase = .idle → w.extractLsb' 0 8 = opc → w.extractLsb' 8 56 ≠ 0 →
    command w s = .next (s.reject .rsvd))

/-- Operations issued one after the other, stopping at the first that does not complete. -/
def runOps : List Instr → State → Result
  | [], s => .next s
  | i :: is, s =>
    match exec i s with
    | .next t => runOps is t
    | .fault f => .fault f
    | .refused r => .refused r

/-- The eight mixing iterations in order (R102 `MIXALL`). -/
def mixAll : List Instr := [.mix 0, .mix 1, .mix 2, .mix 3, .mix 4, .mix 5, .mix 6, .mix 7]

/-- What holds in every state a run reaches. -/
structure State.Inv (s : State) : Prop where
  /-- the input memory is in canonical form -/
  inputWf : s.input.wf
  /-- it lists no index at or above `LEN_MAX` (R60) -/
  inputInRange : ∀ c ∈ s.input, c.1 < s.cfg.lenMax.val
  /-- R26: `K` takes values 0 to 8 -/
  kAtMostEight : s.k.toNat ≤ 8
  /-- a RUN in progress was accepted with `LEN <= LEN_MAX` (R172, R193) -/
  busyLenFits : s.phase ≠ .idle → s.LenFits
  /-- R178: in phase FOLD `OFF` is a multiple of 32 and has not passed the last chunk -/
  foldOff : s.phase = .fold → s.off.toNat % 32 = 0 ∧ s.off.toNat ≤ s.len.toNat + 31
  /-- R174, R177: after the fold phase `OFF` stands just past the last chunk -/
  passedOff : s.phase = .seed ∨ s.phase = .mix ∨ s.phase = .emit → s.off.toNat = 32 * chunkCount s.len.toNat
  /-- R176: the emit step comes after all eight mixing iterations -/
  emitK : s.phase = .emit → s.k = 8
  /-- R217: while a RUN is in progress no digest is valid -/
  busyNotValid : s.phase ≠ .idle → s.dvalid = false
  /-- R23, R217: without `DVALID` the digest registers hold zeros -/
  notValidZero : s.dvalid = false → s.dig = zeroBytes32
  /-- R215: only bytes of the input of the RUN in progress race -/
  racesBelowLen : s.phase ≠ .idle → ∀ r ∈ s.races, r.addr < s.len.toNat
  /-- every recorded race has its own free choice, drawn before -/
  racesDrawn : ∀ r ∈ s.races, r.draw < s.draws

/-- How far a RUN whose input the host leaves alone has come with the function `digest` (R171 to R177). -/
structure State.RunProgress (s : State) : Prop where
  lenFits : s.phase ≠ .idle → s.LenFits
  noRace : s.phase ≠ .idle → s.races = []
  folding : s.phase = .fold → ∃ n, s.off.toNat = 32 * n ∧ n ≤ chunkCount s.len.toNat ∧
    s.acc = foldChunks (zeroExtended s.inputBytes) n
  folded : s.phase = .seed → s.acc = foldState s.inputBytes
  mixing : s.phase = .mix → s.k.toNat ≤ 8 ∧ s.seeds = seedsOf (foldState s.inputBytes) ∧
    s.acc = mixRounds s.cfg.gen (foldState s.inputBytes) s.k.toNat
  mixed : s.phase = .emit → s.acc = mixRounds s.cfg.gen (foldState s.inputBytes) 8

/-- The host's next move leaves the input of a RUN in progress alone (R215): it is no store below `LEN` while BUSY. -/
def State.NextMoveLeavesInput (s : State) : Prop :=
  ∀ a bytes ts, s.schedule = .store a bytes :: ts → s.phase ≠ .idle → s.len.toNat ≤ a

end Sys2Proof.Machine
end

