-- ==== Sys2Proof/Certificates/Slice0/Obligations.lean ====
section
/-! DEFINITION. The statements for the provers, each with the rule of the spec it formalises. Every one holds for every
configuration: for every `LEN_MAX`, every generator `GEN` and every `REG_BASE`. -/

open Sys2Proof Sys2Proof.Machine

/-! ### The eight operations -/

/-- R110. -/
def Obligations.ClrClearsTheCall : Prop :=
  FormatZRule 0x01 .clr ∧
  ∀ s : State, s.phase = .idle →
    exec .clr s = .next { s with
      acc := ⟨0, 0, 0, 0⟩, lanes := ⟨0, 0, 0, 0⟩, seeds := ⟨0, 0, 0, 0, 0, 0, 0, 0⟩, dig := zeroBytes32,
      dvalid := false, off := 0, k := 0, err := .none }

/-- R112, with the lane function of R111. A byte of the chunk below `LEN` that nothing has written has no value
(R61): `UnwrittenInputStopsTheLoad` says what happens then. -/
def Obligations.LdchunkLoadsFourLanes : Prop :=
  FormatZRule 0x02 .ldchunk ∧
  (∀ s : State, s.phase = .idle → s.cfg.lenMax.val < s.len.toNat → exec .ldchunk s = .next (s.reject .lenRange)) ∧
  ∀ s : State, s.phase = .idle → s.LenFits → s.ChunkWritten →
    exec .ldchunk s = .next { s with
      lanes := ⟨s.lane 1 s.off.toNat, s.lane 2 s.off.toNat, s.lane 3 s.off.toNat, s.lane 4 s.off.toNat⟩ }

/-- R120. -/
def Obligations.FoldXorsLanesIntoAccumulators : Prop :=
  FormatZRule 0x03 .fold ∧
  ∀ s : State, s.phase = .idle →
    exec .fold s = .next { s with
      acc := ⟨s.acc.x1 ^^^ s.lanes.x1, s.acc.x2 ^^^ s.lanes.x2, s.acc.x3 ^^^ s.lanes.x3, s.acc.x4 ^^^ s.lanes.x4⟩ }

/-- R122. -/
def Obligations.AbsorbIsOneFoldIteration : Prop :=
  FormatZRule 0x04 .absorb ∧
  (∀ s : State, s.phase = .idle → s.cfg.lenMax.val < s.len.toNat → exec .absorb s = .next (s.reject .lenRange)) ∧
  ∀ s : State, s.phase = .idle → s.LenFits → s.ChunkWritten →
    exec .absorb s = .next { s with
      lanes := ⟨s.lane 1 s.off.toNat, s.lane 2 s.off.toNat, s.lane 3 s.off.toNat, s.lane 4 s.off.toNat⟩,
      acc := ⟨s.acc.x1 ^^^ s.lane 1 s.off.toNat, s.acc.x2 ^^^ s.lane 2 s.off.toNat,
              s.acc.x3 ^^^ s.lane 3 s.off.toNat, s.acc.x4 ^^^ s.lane 4 s.off.toNat⟩,
      off := BitVec.ofNat 64 ((s.off.toNat + 32) % 2 ^ 64) }

/-- R131. -/
def Obligations.SeedSnapshotsTheHalves : Prop :=
  FormatZRule 0x05 .seed ∧
  ∀ s : State, s.phase = .idle →
    exec .seed s = .next { s with
      seeds := ⟨s.acc.x1.extractLsb' 32 32, s.acc.x1.extractLsb' 0 32, s.acc.x2.extractLsb' 32 32,
                s.acc.x2.extractLsb' 0 32, s.acc.x3.extractLsb' 32 32, s.acc.x3.extractLsb' 0 32,
                s.acc.x4.extractLsb' 32 32, s.acc.x4.extractLsb' 0 32⟩ }

/-- R141, for every generator. -/
def Obligations.MixXorsGeneratorBlocks : Prop :=
  ∀ k : BitVec 3,
    encode (.mix k) = 0#53 ++ k ++ 0x06#8 ∧ decode (0#53 ++ k ++ 0x06#8) = .instr (.mix k) ∧
    (∀ s : State, s.phase ≠ .idle → exec (.mix k) s = .next (s.reject .busy)) ∧
    (∀ (s : State) (w : Word), s.phase = .idle → w.extractLsb' 0 8 = 0x06#8 → w.extractLsb' 11 53 ≠ 0 →
      command w s = .next (s.reject .rsvd)) ∧
    ∀ s : State, s.phase = .idle →
      exec (.mix k) s = .next { s with
        acc := ⟨s.acc.x1 ^^^ le64 (generate s.cfg.gen (seedGet s.seeds k.toNat).toInt).x1,
                s.acc.x2 ^^^ le64 (generate s.cfg.gen (seedGet s.seeds k.toNat).toInt).x2,
                s.acc.x3 ^^^ le64 (generate s.cfg.gen (seedGet s.seeds k.toNat).toInt).x3,
                s.acc.x4 ^^^ le64 (generate s.cfg.gen (seedGet s.seeds k.toNat).toInt).x4⟩ }

/-- R161. -/
def Obligations.EmitSerializesAccumulators : Prop :=
  FormatZRule 0x07 .emit ∧
  ∀ s : State, s.phase = .idle →
    ∃ t : State, exec .emit s = .next t ∧
      (∀ j b, j < 4 → b < 8 → byteOf t.dig (8 * j + b) = (quadGet s.acc j).extractLsb' (8 * b) 8) ∧
      t = { s with dig := t.dig, dvalid := true }

/-- R172. (The list of races is the model's own; nothing is said of it here.) -/
def Obligations.RunIsAccepted : Prop :=
  FormatZRule 0x08 .run ∧
  (∀ s : State, s.phase = .idle → s.cfg.lenMax.val < s.len.toNat → exec .run s = .next (s.reject .lenRange)) ∧
  ∀ s : State, s.phase = .idle → s.LenFits →
    ∃ t : State, exec .run s = .next t ∧
      t = { s with
        acc := ⟨0, 0, 0, 0⟩, lanes := ⟨0, 0, 0, 0⟩, seeds := ⟨0, 0, 0, 0, 0, 0, 0, 0⟩, dig := zeroBytes32,
        dvalid := false, off := 0, k := 0, err := .none, phase := .fold, races := t.races }

/-- R61, R204 e: the two operations that read memory stop at a byte of their chunk that nothing has written. -/
def Obligations.UnwrittenInputStopsTheLoad : Prop :=
  ∀ (s : State) (a : Nat), s.phase = .idle → s.LenFits →
    s.off.toNat ≤ a → a < s.off.toNat + 32 → a < s.len.toNat → s.input.read a = none →
    exec .ldchunk s = .fault .unwrittenInput ∧ exec .absorb s = .fault .unwrittenInput

/-- The frame of the eight operations, a rejected one included. -/
def Obligations.OperationsLeaveTheRestAlone : Prop :=
  ∀ (i : Instr) (s t : State), exec i s = .next t →
    (∀ a, t.input.read a = s.input.read a) ∧ t.len = s.len ∧ t.cfg = s.cfg ∧
    t.schedule = s.schedule ∧ t.reply = s.reply ∧ t.draws = s.draws ∧
    (i = .ldchunk ∨ i = .seed ∨ i = .emit → t.acc = s.acc) ∧
    (i ≠ .clr → i ≠ .ldchunk → i ≠ .absorb → i ≠ .run → t.lanes = s.lanes) ∧
    (i ≠ .clr → i ≠ .seed → i ≠ .run → t.seeds = s.seeds) ∧
    (i ≠ .clr → i ≠ .emit → i ≠ .run → t.dig = s.dig ∧ t.dvalid = s.dvalid) ∧
    (i ≠ .clr → i ≠ .absorb → i ≠ .run → t.off = s.off) ∧
    (i ≠ .clr → i ≠ .run → t.k = s.k) ∧
    (i ≠ .run → t.phase = s.phase ∧ t.races = s.races) ∧
    (i ≠ .clr → i ≠ .run → s.err ≠ .none → t.err = s.err)

/-! ### The sequencer -/

/-- R173, R204 c: the sequencer steps on its own turns and when the host has no move left; in phase IDLE it has no
step. (That an idle engine with no turn left stays as it is is the model's choice, log entry 3.) -/
def Obligations.SequencerTakesItsTurns : Prop :=
  (∀ s : State, s.schedule = [] → step s = sequencerTurn s) ∧
  (∀ (s : State) (ts : List Turn), s.schedule = .sequencer :: ts → step s = sequencerTurn (s.withSchedule ts)) ∧
  ∀ s : State, s.phase = .idle → sequencerTurn s = .next s

/-- R174, for an input with which no store has raced. -/
def Obligations.FoldPhaseLoadsOrEnds : Prop :=
  (∀ s : State, s.phase = .fold → s.off.toNat < s.len.toNat → s.races = [] → s.ChunkWritten →
    sequencerTurn s = .next { s with
      lanes := ⟨s.lane 1 s.off.toNat, s.lane 2 s.off.toNat, s.lane 3 s.off.toNat, s.lane 4 s.off.toNat⟩,
      acc := ⟨s.acc.x1 ^^^ s.lane 1 s.off.toNat, s.acc.x2 ^^^ s.lane 2 s.off.toNat,
              s.acc.x3 ^^^ s.lane 3 s.off.toNat, s.acc.x4 ^^^ s.lane 4 s.off.toNat⟩,
      off := s.off + 32 }) ∧
  ∀ s : State, s.phase = .fold → s.len.toNat ≤ s.off.toNat → sequencerTurn s = .next { s with phase := .seed }

/-- R215, U11: the same step when stores have raced: each byte read is the one the store's free choice gives. -/
def Obligations.FoldPhaseReadsRacedBytes : Prop :=
  ∀ s : State, s.phase = .fold → s.off.toNat < s.len.toNat →
    (∀ a, s.off.toNat ≤ a → a < s.off.toNat + 32 → a < s.len.toNat → (s.runByte a).isSome = true) →
    sequencerTurn s = .next { s with
      lanes := lanesAt (fun a => if a < s.len.toNat then (s.runByte a).getD 0 else 0) s.off.toNat,
      acc := quadXor s.acc (lanesAt (fun a => if a < s.len.toNat then (s.runByte a).getD 0 else 0) s.off.toNat),
      off := s.off + 32 }

/-- R175. -/
def Obligations.SeedPhaseTakesSeeds : Prop :=
  ∀ s : State, s.phase = .seed →
    sequencerTurn s = .next { s with
      seeds := ⟨s.acc.x1.extractLsb' 32 32, s.acc.x1.extractLsb' 0 32, s.acc.x2.extractLsb' 32 32,
                s.acc.x2.extractLsb' 0 32, s.acc.x3.extractLsb' 32 32, s.acc.x3.extractLsb' 0 32,
                s.acc.x4.extractLsb' 32 32, s.acc.x4.extractLsb' 0 32⟩,
      k := 0, phase := .mix }

/-- R176. -/
def Obligations.MixPhaseMixesOrEnds : Prop :=
  (∀ s : State, s.phase = .mix → s.k.toNat < 8 →
    sequencerTurn s = .next { s with
      acc := ⟨s.acc.x1 ^^^ (mixWords s.cfg.gen (seedGet s.seeds s.k.toNat)).x1,
              s.acc.x2 ^^^ (mixWords s.cfg.gen (seedGet s.seeds s.k.toNat)).x2,
              s.acc.x3 ^^^ (mixWords s.cfg.gen (seedGet s.seeds s.k.toNat)).x3,
              s.acc.x4 ^^^ (mixWords s.cfg.gen (seedGet s.seeds s.k.toNat)).x4⟩,
      k := s.k + 1 }) ∧
  ∀ s : State, s.phase = .mix → s.k = 8 → sequencerTurn s = .next { s with phase := .emit }

/-- R177. Its last sentence holds in the states a run reaches. Where no store has raced with the RUN (R215) the
accumulators are as before; `RacingStoreIsOldOrNew` says what they and the digest are where one has. -/
def Obligations.EmitPhaseEndsTheRun : Prop :=
  ∀ s : State, s.phase = .emit →
    ∃ t : State, sequencerTurn s = .next t ∧
      (∀ j b, j < 4 → b < 8 → byteOf t.dig (8 * j + b) = (quadGet t.acc j).extractLsb' (8 * b) 8) ∧
      (s.races = [] → t.acc = s.acc ∧ t.draws = s.draws) ∧
      t = { s with acc := t.acc, draws := t.draws, dig := t.dig, dvalid := true, phase := .idle } ∧
      (s.Inv → t.k = 8 ∧ t.off.toNat = 32 * ((s.len.toNat + 31) / 32))

/-! ### Encoding and rejection -/

/-- R94, R95: a word decodes to an operation exactly when it is that operation's command word. -/
def Obligations.DecodeIffEncode : Prop :=
  ∀ (w : Word) (i : Instr), decode w = .instr i ↔ w = encode i

/-- R95, last paragraph, R96, R97: every word matches one row of the opcode table, or is illegal by its opcode, or by
its reserved bits. -/
def Obligations.DecodeSortsEveryWord : Prop :=
  ∀ w : Word,
    (wellFormedWord w = true ↔ ∃ i, decode w = .instr i) ∧
    (decode w = .illop ↔ ∀ r ∈ opcodeTable, w.extractLsb' 0 8 ≠ r.pattern.extractLsb' 0 8) ∧
    (decode w = .rsvd ↔ wellFormedWord w = false ∧ ∃ r ∈ opcodeTable, w.extractLsb' 0 8 = r.pattern.extractLsb' 0 8)

/-- Words written out from the spec's encodings (R91, R92, R94; vectors V70 to V77). -/
def Obligations.WrittenOutWordsDecode : Prop :=
  decode 0x0000000000000001 = .instr .clr ∧ decode 0x0000000000000002 = .instr .ldchunk ∧
  decode 0x0000000000000003 = .instr .fold ∧ decode 0x0000000000000004 = .instr .absorb ∧
  decode 0x0000000000000005 = .instr .seed ∧ decode 0x0000000000000006 = .instr (.mix 0) ∧
  decode 0x0000000000000706 = .instr (.mix 7) ∧ decode 0x0000000000000007 = .instr .emit ∧
  decode 0x0000000000000008 = .instr .run ∧
  decode 0x0000000000000000 = .illop ∧ decode 0x00000000000000FF = .illop ∧ decode 0xFFFFFFFFFFFFFF00 = .illop ∧
  decode 0x0000000000000103 = .rsvd ∧ decode 0x0000000000000806 = .rsvd ∧ decode 0x8000000000000008 = .rsvd

/-- R95: the five cases of decoding, in their order, and the opcode table's well-formed words. -/
def Obligations.CommandFallsInFiveCases : Prop :=
  ∀ (w : Word) (s : State),
    (s.phase ≠ .idle → command w s = .next (s.reject .busy)) ∧
    (s.phase = .idle → (w.extractLsb' 0 8).toNat = 0 ∨ 8 < (w.extractLsb' 0 8).toNat →
      command w s = .next (s.reject .illop)) ∧
    (s.phase = .idle → 1 ≤ (w.extractLsb' 0 8).toNat → (w.extractLsb' 0 8).toNat ≤ 8 →
      (if (w.extractLsb' 0 8).toNat = 6 then w.extractLsb' 11 53 ≠ 0 else w.extractLsb' 8 56 ≠ 0) →
      command w s = .next (s.reject .rsvd)) ∧
    (s.phase = .idle → w = 0x02 ∨ w = 0x04 ∨ w = 0x08 → s.cfg.lenMax.val < s.len.toNat →
      command w s = .next (s.reject .lenRange)) ∧
    (s.phase = .idle → 1 ≤ (w.extractLsb' 0 8).toNat → (w.extractLsb' 0 8).toNat ≤ 8 →
      (if (w.extractLsb' 0 8).toNat = 6 then w.extractLsb' 11 53 = 0 else w.extractLsb' 8 56 = 0) →
      (w = 0x02 ∨ w = 0x04 ∨ w = 0x08 → s.LenFits) → ∃ i, w = encode i ∧ command w s = exec i s) ∧
    (wellFormedWord w = true ↔ ∃ i, w = encode i) ∧
    (opcodeTable.filter (·.matches w)).length ≤ 1 ∧
    (s.phase = .idle → wellFormedWord w = false →
      command w s = .next (s.reject
        (if ∃ r ∈ opcodeTable, w.extractLsb' 0 8 = r.pattern.extractLsb' 0 8 then .rsvd else .illop)))

/-- R194, R191: the code of a rejected access, by the first cause that applies. -/
def Obligations.FirstCauseGivesTheCode : Prop :=
  ∀ (off size : Nat) (v : Word) (s : State),
    (¬ (size = 8 ∧ (off = 0x00 ∨ off = 0x10 ∨ off = 0x18)) → hostWrite off size v s = .next (s.reject .access)) ∧
    (¬ (size = 8 ∧ off % 8 = 0 ∧ off < 0xA0) → hostRead off size s = (s.reject .access).answer 0) ∧
    (size = 8 → off = 0x00 ∨ off = 0x10 ∨ off = 0x18 → s.phase ≠ .idle →
      hostWrite off size v s = .next (s.reject .busy)) ∧
    (size = 8 → off = 0x00 → s.phase = .idle → (v.extractLsb' 0 8).toNat = 0 ∨ 8 < (v.extractLsb' 0 8).toNat →
      hostWrite off size v s = .next (s.reject .illop)) ∧
    (size = 8 → off = 0x00 → s.phase = .idle → 1 ≤ (v.extractLsb' 0 8).toNat → (v.extractLsb' 0 8).toNat ≤ 8 →
      (if (v.extractLsb' 0 8).toNat = 6 then v.extractLsb' 11 53 ≠ 0 else v.extractLsb' 8 56 ≠ 0) →
      hostWrite off size v s = .next (s.reject .rsvd)) ∧
    (size = 8 → off = 0x00 → s.phase = .idle → v = 0x02 ∨ v = 0x04 ∨ v = 0x08 → s.cfg.lenMax.val < s.len.toNat →
      hostWrite off size v s = .next (s.reject .lenRange))

/-- R192: a reject keeps the first error and changes nothing else, a rejected read returns 0, and only an accepted CLR,
an accepted RUN and reset take a recorded error away. -/
def Obligations.FirstErrorIsKept : Prop :=
  (∀ (s : State) (c : ErrCode), s.reject c = { s with err := if s.err = .none then c else s.err }) ∧
  (∀ (s : State) (off size : Nat), ¬ (size = 8 ∧ off % 8 = 0 ∧ off < 0xA0) →
    hostRead off size s = { s with err := if s.err = .none then .access else s.err, reply := some 0 }) ∧
  ∀ s t : State, step s = .next t → s.err ≠ .none → t.err ≠ s.err →
    t.err = .none ∧
    ((∃ ts, s.schedule = .reset :: ts) ∨
     (∃ ts, s.schedule = .write 0x00 8 0x01 :: ts ∧ s.phase = .idle) ∨
     (∃ ts, s.schedule = .write 0x00 8 0x08 :: ts ∧ s.phase = .idle ∧ s.LenFits))

/-- R193. The first clause's stop of a store at or above `LEN_MAX`, which R60 says does not exist, is the model's choice,
log entry 9. -/
def Obligations.LengthIsCheckedByReadersOnly : Prop :=
  (∀ (s : State) (a : Nat) (v : Byte), (∃ t : State, hostStore a [v] s = .next t) ↔ a < s.cfg.lenMax.val) ∧
  (∀ (s : State) (v : Word), s.phase = .idle → hostWrite 0x10 8 v s = .next { s with len := v }) ∧
  (∀ c : Config, c.lenMax.val ≤ 2 ^ 64 - 33) ∧
  (∀ s : State, s.phase = .idle → s.cfg.lenMax.val < s.len.toNat →
    exec .ldchunk s = .next (s.reject .lenRange) ∧ exec .absorb s = .next (s.reject .lenRange) ∧
    exec .run s = .next (s.reject .lenRange)) ∧
  (∀ s : State, s.phase = .idle → s.LenFits → ∃ t : State, exec .run s = .next t ∧ t.phase = .fold) ∧
  ∀ (i : Instr) (s : State) (v : Word), i ≠ .ldchunk → i ≠ .absorb → i ≠ .run → s.phase = .idle →
    ∃ t : State, exec i s = .next t ∧ exec i { s with len := v } = .next { t with len := v }

/-! ### The register block -/

/-- R42. -/
def Obligations.CommandRegisterReadsZero : Prop :=
  (∀ s : State, hostRead 0x00 8 s = { s with reply := some 0 }) ∧
  ∀ (s : State) (w : Word), hostWrite 0x00 8 w s = command w s

/-- R43. -/
def Obligations.StatusRegisterShowsFields : Prop :=
  (∀ s : State, ∃ v : Word, hostRead 0x08 8 s = { s with reply := some v } ∧
    (v.extractLsb' 0 1 = 1 ↔ s.phase ≠ .idle) ∧ (v.extractLsb' 1 1 = 1 ↔ s.dvalid = true) ∧
    v.extractLsb' 2 3 = (match s.phase with | .idle => 0 | .fold => 1 | .seed => 2 | .mix => 3 | .emit => 4) ∧
    v.extractLsb' 5 3 = 0 ∧ v.extractLsb' 8 4 = s.k ∧ v.extractLsb' 12 4 = 0 ∧
    v.extractLsb' 16 4 = (match s.err with
      | .none => 0 | .illop => 1 | .rsvd => 2 | .busy => 3 | .lenRange => 4 | .access => 5) ∧
    v.extractLsb' 20 44 = 0) ∧
  (∀ (s : State) (x : Word), hostWrite 0x08 8 x s = .next (s.reject .access)) ∧
  ∀ c : Config, (State.resetWith c).readReg .status = 0x0000000000000000

/-- R44, R45. -/
def Obligations.LengthAndOffsetRegisters : Prop :=
  (∀ s : State, hostRead 0x10 8 s = { s with reply := some s.len }) ∧
  (∀ s : State, hostRead 0x18 8 s = { s with reply := some s.off }) ∧
  (∀ (s : State) (v : Word), s.phase = .idle → hostWrite 0x10 8 v s = .next { s with len := v }) ∧
  (∀ (s : State) (v : Word), s.phase = .idle → hostWrite 0x18 8 v s = .next { s with off := v }) ∧
  ∀ (s : State) (v : Word), s.phase ≠ .idle →
    hostWrite 0x10 8 v s = .next (s.reject .busy) ∧ hostWrite 0x18 8 v s = .next (s.reject .busy)

/-- R46, R47. -/
def Obligations.AccumulatorAndLaneRegisters : Prop :=
  (∀ s : State,
    hostRead 0x20 8 s = { s with reply := some s.acc.x1 } ∧ hostRead 0x28 8 s = { s with reply := some s.acc.x2 } ∧
    hostRead 0x30 8 s = { s with reply := some s.acc.x3 } ∧ hostRead 0x38 8 s = { s with reply := some s.acc.x4 } ∧
    hostRead 0x40 8 s = { s with reply := some s.lanes.x1 } ∧ hostRead 0x48 8 s = { s with reply := some s.lanes.x2 } ∧
    hostRead 0x50 8 s = { s with reply := some s.lanes.x3 } ∧ hostRead 0x58 8 s = { s with reply := some s.lanes.x4 }) ∧
  ∀ (s : State) (off : Nat) (v : Word), off ∈ [0x20, 0x28, 0x30, 0x38, 0x40, 0x48, 0x50, 0x58] →
    hostWrite off 8 v s = .next (s.reject .access)

/-- R48. -/
def Obligations.SeedRegisters : Prop :=
  (∀ s : State,
    hostRead 0x60 8 s = { s with reply := some (s.seeds.s0 ++ s.seeds.s1) } ∧
    hostRead 0x68 8 s = { s with reply := some (s.seeds.s2 ++ s.seeds.s3) } ∧
    hostRead 0x70 8 s = { s with reply := some (s.seeds.s4 ++ s.seeds.s5) } ∧
    hostRead 0x78 8 s = { s with reply := some (s.seeds.s6 ++ s.seeds.s7) }) ∧
  ∀ (s : State) (off : Nat) (v : Word), off ∈ [0x60, 0x68, 0x70, 0x78] →
    hostWrite off 8 v s = .next (s.reject .access)

/-- R49. -/
def Obligations.DigestRegisters : Prop :=
  (∀ s : State,
    hostRead 0x80 8 s = { s with reply := some (le64 s.dig.x1) } ∧
    hostRead 0x88 8 s = { s with reply := some (le64 s.dig.x2) } ∧
    hostRead 0x90 8 s = { s with reply := some (le64 s.dig.x3) } ∧
    hostRead 0x98 8 s = { s with reply := some (le64 s.dig.x4) }) ∧
  (∀ (s : State) (n : Nat), n < 32 →
    byteOf s.dig n = (le64 (quadGet s.dig (n / 8))).extractLsb' (8 * (n % 8)) 8) ∧
  ∀ (s : State) (off : Nat) (v : Word), off ∈ [0x80, 0x88, 0x90, 0x98] →
    hostWrite off 8 v s = .next (s.reject .access)

/-- What R48, R49 and R43 mark as derived: right after SEED the seed registers read as the accumulators do, right after
EMIT the digest registers do, and after a RUN with no error recorded `STATUS` reads `0x802`. -/
def Obligations.RegistersShowFinishedWork : Prop :=
  (∀ s t : State, s.phase = .idle → exec .seed s = .next t →
    ∀ j : Fin 4, t.readReg (.sv j) = t.readReg (.p j)) ∧
  (∀ s t : State, s.phase = .idle → exec .emit s = .next t →
    ∀ j : Fin 4, t.readReg (.d j) = t.readReg (.p j)) ∧
  ∀ s t : State, s.Inv → s.phase = .emit → s.err = .none → sequencerTurn s = .next t →
    t.readReg .status = 0x0000000000000802

/-- R50. -/
def Obligations.BadAccessesAreRejected : Prop :=
  ∀ (s : State) (off size : Nat) (v : Word),
    (size ≠ 8 ∨ off % 8 ≠ 0 ∨ 0xA0 ≤ off →
      hostWrite off size v s = .next (s.reject .access) ∧ hostRead off size s = (s.reject .access).answer 0) ∧
    (off = 0x08 ∨ 0x20 ≤ off → hostWrite off size v s = .next (s.reject .access))

/-! ### Reset -/

/-- R55. -/
def Obligations.ResetLeavesZeros : Prop :=
  (∀ (c : Config) (s : State), s = State.reset ∨ s = State.resetWith c →
    s.acc = ⟨0, 0, 0, 0⟩ ∧ s.lanes = ⟨0, 0, 0, 0⟩ ∧ s.seeds = ⟨0, 0, 0, 0, 0, 0, 0, 0⟩ ∧ s.dig = zeroBytes32 ∧
    s.dvalid = false ∧ s.len = 0 ∧ s.off = 0 ∧ s.k = 0 ∧ s.phase = .idle ∧ s.err = .none) ∧
  ∀ s t : State, takeTurn .reset s = .next t → t.input = s.input

/-- R210, in any state. That the model's own schedule, reply and count of free choices stay is the model's choice, log
entry 14. (The list of races is the model's own too; nothing is said of it here.) -/
def Obligations.ResetStrikesAtAnyTime : Prop :=
  ∀ s : State, ∃ t : State, takeTurn .reset s = .next t ∧
    t = { s with
      acc := ⟨0, 0, 0, 0⟩, lanes := ⟨0, 0, 0, 0⟩, seeds := ⟨0, 0, 0, 0, 0, 0, 0, 0⟩, dig := zeroBytes32,
      dvalid := false, len := 0, off := 0, k := 0, phase := .idle, err := .none, races := t.races }

/-- R211: RUN right after reset hashes the empty input, for every configuration. The 13 steps and the end state are
what R181 and R180 mark as derived; that the sequencer goes on when no turn is left is the model's form, log entry 3. -/
def Obligations.RunAfterResetGivesZeros : Prop :=
  ∀ c : Config,
    (State.resetWith c).readReg .status = 0 ∧
    Sys2Proof.core.run 13 ((State.resetWith c).withCommand 0x0000000000000008) =
      .next ({ State.resetWith c with dig := zeroBytes32, dvalid := true, k := 8 } : State)

/-! ### The input memory -/

/-- R64: what the loader does depends on the bytes below `LEN` only. -/
def Obligations.LoaderReadsBelowLengthOnly : Prop :=
  ∀ (s : State) (m : Memory), (∀ a, a < s.len.toNat → m.read a = s.input.read a) →
    ((exec .ldchunk s = .fault .unwrittenInput ∧ exec .ldchunk { s with input := m } = .fault .unwrittenInput) ∨
      ∃ t : State, exec .ldchunk s = .next t ∧ exec .ldchunk { s with input := m } = .next { t with input := m }) ∧
    ((exec .absorb s = .fault .unwrittenInput ∧ exec .absorb { s with input := m } = .fault .unwrittenInput) ∨
      ∃ t : State, exec .absorb s = .next t ∧ exec .absorb { s with input := m } = .next { t with input := m }) ∧
    (s.phase = .fold →
      (sequencerTurn s = .fault .unwrittenInput ∧ sequencerTurn { s with input := m } = .fault .unwrittenInput) ∨
      ∃ t : State, sequencerTurn s = .next t ∧ sequencerTurn { s with input := m } = .next { t with input := m })

/-- R65, R60: only the host's stores change the input memory. -/
def Obligations.OnlyStoresChangeTheInput : Prop :=
  ∀ s t : State, step s = .next t → (∀ a bytes ts, s.schedule ≠ .store a bytes :: ts) → t.input = s.input

/-- R60, R75: a host store puts its bytes where it says and changes no register; an index at or above `LEN_MAX` does
not exist. -/
def Obligations.HostStoreWritesItsBytes : Prop :=
  ∀ (s : State) (a : Nat) (bytes : List Byte), bytes ≠ [] →
    (s.cfg.lenMax.val < a + bytes.length → hostStore a bytes s = .fault .noSuchInputByte) ∧
    (a + bytes.length ≤ s.cfg.lenMax.val →
      ∃ t : State, hostStore a bytes s = .next t ∧
        (∀ n, n < bytes.length → t.input.read (a + n) = bytes[n]?) ∧
        (∀ b, b < a ∨ a + bytes.length ≤ b → t.input.read b = s.input.read b) ∧
        t = { s with input := t.input, races := t.races, draws := t.draws } ∧
        (s.phase = .idle ∨ s.len.toNat ≤ a → t.races = s.races ∧ t.draws = s.draws))

/-- R215, U11, log entry 6: after the host has stored a byte of the input of a RUN in progress, in whatever phase, the
RUN reads the new byte or what it would have read before, by a free choice, and every other byte as before; the store
stays on record until the RUN has emitted or been reset; and the digest words that such a RUN then leaves are a free
value. -/
def Obligations.RacingStoreIsOldOrNew : Prop :=
  (∀ (s : State) (a : Nat) (v : Byte), s.phase ≠ .idle → a < s.len.toNat → s.LenFits →
    ∃ t : State, hostStore a [v] s = .next t ∧ t.input.read a = some v ∧
      t.runByte a = (if Config.raceTakesNew s.draws then some v else s.runByte a) ∧
      (∀ b, b ≠ a → t.runByte b = s.runByte b) ∧ t.races ≠ [] ∧ t.draws = s.draws + 1) ∧
  (∀ s t : State, s.phase ≠ .idle → s.races ≠ [] → step s = .next t → (∀ ts, s.schedule ≠ .reset :: ts) →
    t.races ≠ []) ∧
  ∀ s : State, s.phase = .emit → s.races ≠ [] →
    sequencerTurn s = .next { s with
      acc := Config.racedDigest s.draws, draws := s.draws + 1,
      dig := digestBytes (Config.racedDigest s.draws), dvalid := true, phase := .idle }

/-! ### Steps -/

/-- R42, R79, R95: when the host's next move is to write a command word that decodes to `i`, the step is `i`'s step on
the state with that move taken off the schedule; `withFetchWord` makes such a move the next one. -/
def Obligations.StepRunsTheDecodedOperation : Prop :=
  (∀ (s : State) (ts : List Turn) (w : Word) (i : Instr), s.schedule = .write 0x00 8 w :: ts → decode w = .instr i →
    step s = exec i { s with schedule := ts }) ∧
  ∀ (s : State) (w : Nat) (i : Instr), w < 2 ^ 64 → decodeTableWord 64 w = some i →
    step (s.withFetchWord 64 w) = exec i s

/-- R27, C5: the phases are visited in one order; an accepted RUN begins it, the sequencer goes on, and only reset
(R210) breaks it off. -/
def Obligations.PhasesFollowOneOrder : Prop :=
  ∀ s t : State, step s = .next t → t.phase ≠ s.phase →
    (s.phase = .idle ∧ t.phase = .fold ∧ s.LenFits ∧ ∃ ts, s.schedule = .write 0x00 8 0x08 :: ts) ∨
    ((s.schedule = [] ∨ ∃ ts, s.schedule = .sequencer :: ts) ∧
      ((s.phase = .fold ∧ t.phase = .seed) ∨ (s.phase = .seed ∧ t.phase = .mix) ∨
       (s.phase = .mix ∧ t.phase = .emit) ∨ (s.phase = .emit ∧ t.phase = .idle))) ∨
    ((∃ ts, s.schedule = .reset :: ts) ∧ t.phase = .idle)

/-- R24: only the host's write of register `LEN` while IDLE, and reset (R210), change `LEN`; any value can be stored, and
one above `LEN_MAX` makes the operations that read memory reject. -/
def Obligations.OnlyTheHostChangesLength : Prop :=
  (∀ s t : State, step s = .next t → t.len ≠ s.len →
    (∃ v ts, s.schedule = .write 0x10 8 v :: ts ∧ s.phase = .idle ∧ t.len = v) ∨
    ((∃ ts, s.schedule = .reset :: ts) ∧ t.len = 0)) ∧
  (∀ (s : State) (v : Word) (ts : List Turn), s.schedule = .write 0x10 8 v :: ts → s.phase = .idle →
    step s = .next { s with len := v, schedule := ts }) ∧
  ∀ s : State, s.phase = .idle → s.cfg.lenMax.val < s.len.toNat →
    exec .ldchunk s = .next (s.reject .lenRange) ∧ exec .absorb s = .next (s.reject .lenRange) ∧
    exec .run s = .next (s.reject .lenRange)

/-- U15: no step changes the machine's configuration. -/
def Obligations.ConfigurationIsFixed : Prop :=
  ∀ s t : State, step s = .next t → t.cfg = s.cfg

/-- The invariant of the machine holds after reset. -/
def Obligations.InvariantHoldsAtReset : Prop :=
  ∀ c : Config, (State.resetWith c).Inv

/-- Every step keeps the invariant of the machine. -/
def Obligations.StepKeepsInvariant : Prop :=
  ∀ s t : State, s.Inv → step s = .next t → t.Inv

/-- U10: in the states a run reaches the model refuses nothing. -/
def Obligations.InvariantStatesAreNeverRefused : Prop :=
  ∀ s : State, s.Inv → ∀ r, step s ≠ .refused r

/-! ### The pipeline -/

/-- R171 to R177: a RUN whose input the host leaves alone goes through the stages of `digest`. -/
def Obligations.StepKeepsRunProgress : Prop :=
  ∀ s t : State, s.RunProgress → s.NextMoveLeavesInput → step s = .next t → t.RunProgress

/-- R177, R179: the emit step of such a RUN leaves the digest of the input. -/
def Obligations.RunInProgressEmitsDigest : Prop :=
  ∀ s t : State, s.RunProgress → s.phase = .emit → sequencerTurn s = .next t →
    t.phase = .idle ∧ t.dvalid = true ∧ t.dig = digest s.cfg.gen s.inputBytes

/-- R180, R181, R217: an accepted RUN that the host leaves alone ends after exactly `ceil(LEN/32) + 13` steps with the
digest, whatever the state before; until then it is BUSY and shows no digest. The spec marks R180 and R181 as derived. The
schedule with the one write, emptied by it, is log entry 3; that an accepted RUN empties the list of races is log entry 6. -/
def Obligations.RunComputesDigest : Prop :=
  ∀ s : State, s.schedule = [.write 0x00 8 0x0000000000000008] → s.phase = .idle → s.LenFits → s.InputWritten →
    Sys2Proof.core.run (chunkCount s.len.toNat + 13) s =
      .next ({ s with
        schedule := []
        acc := mixRounds s.cfg.gen (foldState s.inputBytes) 8
        lanes := if s.len = 0 then quadOf 0
          else lanesAt (zeroExtended s.inputBytes) (32 * (chunkCount s.len.toNat - 1))
        seeds := seedsOf (foldState s.inputBytes)
        dig := digest s.cfg.gen s.inputBytes
        dvalid := true
        off := BitVec.ofNat 64 (32 * chunkCount s.len.toNat)
        k := 8
        phase := .idle
        err := .none
        races := [] } : State) ∧
    ∀ n, 0 < n → n < chunkCount s.len.toNat + 13 →
      ∃ t : State, Sys2Proof.core.run n s = .next t ∧ t.phase ≠ .idle ∧ t.dvalid = false ∧ t.dig = zeroBytes32

/-- What R122 and R123 mark as derived: ABSORB has the effect of LDCHUNK, then FOLD, then a write of `OFF`; after CLR
and `ceil(LEN/32)` ABSORBs the accumulators hold the fold of the input. -/
def Obligations.AbsorbsFoldTheInput : Prop :=
  (∀ s t : State, s.phase = .idle → s.LenFits → runOps [.ldchunk, .fold] s = .next t →
    exec .absorb s = hostWrite 0x18 8 (s.off + 32) t) ∧
  ∀ s : State, s.phase = .idle → s.LenFits → s.InputWritten →
    ∃ t : State, runOps (.clr :: List.replicate (chunkCount s.len.toNat) .absorb) s = .next t ∧
      t.acc = foldState s.inputBytes ∧ t.off.toNat = 32 * chunkCount s.len.toNat ∧ t.len = s.len ∧ t.phase = .idle

/-- R102, R180, R214: the single operations give the same digest as RUN. -/
def Obligations.SingleOperationsGiveDigest : Prop :=
  ∀ s : State, s.phase = .idle → s.LenFits → s.InputWritten →
    ∃ t : State,
      runOps ((.clr :: List.replicate (chunkCount s.len.toNat) .absorb) ++ [.seed] ++ mixAll ++ [.emit]) s = .next t ∧
      t.dig = digest s.cfg.gen s.inputBytes ∧ t.dvalid = true ∧ t.k = 0 ∧ t.err = .none

/-! ### The mix pass and the generator -/

/-- R145: SEED and the eight mixing iterations, for every generator. -/
def Obligations.WholeMixPass : Prop :=
  ∀ s : State, s.phase = .idle →
    ∃ t : State, runOps (.seed :: mixAll) s = .next t ∧ t.seeds = seedsOf s.acc ∧
      (∀ j : Fin 4, quadGet t.acc j =
        quadGet s.acc j ^^^ quadGet (mixWords s.cfg.gen t.seeds.s0) j ^^^ quadGet (mixWords s.cfg.gen t.seeds.s1) j
          ^^^ quadGet (mixWords s.cfg.gen t.seeds.s2) j ^^^ quadGet (mixWords s.cfg.gen t.seeds.s3) j
          ^^^ quadGet (mixWords s.cfg.gen t.seeds.s4) j ^^^ quadGet (mixWords s.cfg.gen t.seeds.s5) j
          ^^^ quadGet (mixWords s.cfg.gen t.seeds.s6) j ^^^ quadGet (mixWords s.cfg.gen t.seeds.s7) j) ∧
      (s.acc = quadOf 0 → t.acc = quadOf 0)

/-- R145, R214, R141: the order of any mixing iterations among themselves does not matter; two iterations with equal
seeds cancel, so the same iteration twice restores the accumulators. -/
def Obligations.MixOrderDoesNotMatter : Prop :=
  (∀ (s : State) (ks ls : List (BitVec 3)), ks.Perm ls →
    runOps (ks.map Instr.mix) s = runOps (ls.map Instr.mix) s) ∧
  ∀ (s : State) (k l : BitVec 3), s.phase = .idle → seedGet s.seeds k.toNat = seedGet s.seeds l.toNat →
    runOps [.mix k, .mix l] s = .next s

/-- R151 a, b: the default generator loses the sign of its seed. -/
def Obligations.DefaultGeneratorLosesSign : Prop :=
  (∀ s : Seed, s ≠ 0x80000000 → generate .sub55 (-s).toInt = generate .sub55 s.toInt) ∧
  generate .sub55 (-2147483648) = generate .sub55 2147483647

/-- R151 e: each of the 32 bytes is the low byte of a corrected difference of two entries of the seeded table; the
samples' write-back never shows. -/
def Obligations.DefaultGeneratorReadsSeededTable : Prop :=
  ∀ (s : Int) (t : Nat), t < 32 →
    byteOf (genSub55 s) t =
      (sub55Correct (sub55Clip ((sub55Table s).getD (t + 1) 0 - (sub55Table s).getD (t + 22) 0))).setWidth 8

/-! ### The function -/

/-- R162: digest byte `n` is byte `n mod 8` of accumulator `P[1 + n div 8]`, and the digest as a number is
`{P[4], P[3], P[2], P[1]}`. -/
def Obligations.DigestLayout : Prop :=
  ∀ (q : Quad Word) (n : Nat), n < 32 →
    byteOf (digestBytes q) n = (quadGet q (n / 8)).extractLsb' (8 * (n % 8)) 8 ∧
    (le64 (digestBytes q).x4 ++ le64 (digestBytes q).x3 ++ le64 (digestBytes q).x2 ++ le64 (digestBytes q).x1
      : BitVec 256) = q.x4 ++ q.x3 ++ q.x2 ++ q.x1

/-- R163: an input that folds to zero has the zero digest, under every generator; the empty input is one. -/
def Obligations.ZeroFoldGivesZeroDigest : Prop :=
  (∀ (g : Generator) (x : List Byte), foldState x = quadOf 0 → digest g x = zeroBytes32) ∧
  ∀ g : Generator, digest g [] = zeroBytes32

/-- R124: trailing zeros are invisible. -/
def Obligations.TrailingZerosAreInvisible : Prop :=
  ∀ (g : Generator) (x : List Byte) (n : Nat),
    foldState (x ++ List.replicate n 0) = foldState x ∧ digest g (x ++ List.replicate n 0) = digest g x

/-- R124: the order of chunks is irrelevant, and a chunk twice cancels. -/
def Obligations.ChunkOrderIsIrrelevant : Prop :=
  (∀ cs ds : List (List Byte), (∀ c ∈ cs, c.length = 32) → cs.Perm ds → foldState cs.flatten = foldState ds.flatten) ∧
  ∀ c : List Byte, c.length = 32 → foldState (c ++ c) = quadOf 0

/-- R124: the fold is linear. -/
def Obligations.FoldIsLinear : Prop :=
  ∀ x y : List Byte, x.length = y.length →
    foldState (List.zipWith (fun a b => a ^^^ b) x y) = quadXor (foldState x) (foldState y)

/-- R124: an input byte reaches exactly one byte of the folded state. -/
def Obligations.InputByteReachesOneByte : Prop :=
  ∀ (x : List Byte) (i : Nat) (v : Byte), i < x.length → ∀ n, n < 32 →
    byteOf (digestBytes (foldState (x.set i v))) n =
      if n = i % 32 then byteOf (digestBytes (foldState x)) n ^^^ x.getD i 0 ^^^ v
      else byteOf (digestBytes (foldState x)) n
end

