-- ==== Sys2Proof/Laws/State.lean ====
section
/-! SUPPORT. What each named update leaves in each field of the state, so that no later proof unfolds a record update. -/

namespace Sys2Proof.Machine

variable (s : State)

/-! ### reject -/

@[simp] theorem State.reject_acc (c : ErrCode) : (s.reject c).acc = s.acc := rfl
@[simp] theorem State.reject_lanes (c : ErrCode) : (s.reject c).lanes = s.lanes := rfl
@[simp] theorem State.reject_seeds (c : ErrCode) : (s.reject c).seeds = s.seeds := rfl
@[simp] theorem State.reject_dig (c : ErrCode) : (s.reject c).dig = s.dig := rfl
@[simp] theorem State.reject_dvalid (c : ErrCode) : (s.reject c).dvalid = s.dvalid := rfl
@[simp] theorem State.reject_len (c : ErrCode) : (s.reject c).len = s.len := rfl
@[simp] theorem State.reject_off (c : ErrCode) : (s.reject c).off = s.off := rfl
@[simp] theorem State.reject_k (c : ErrCode) : (s.reject c).k = s.k := rfl
@[simp] theorem State.reject_phase (c : ErrCode) : (s.reject c).phase = s.phase := rfl
@[simp] theorem State.reject_err (c : ErrCode) : (s.reject c).err = if s.err = .none then c else s.err := rfl
@[simp] theorem State.reject_input (c : ErrCode) : (s.reject c).input = s.input := rfl
@[simp] theorem State.reject_cfg (c : ErrCode) : (s.reject c).cfg = s.cfg := rfl
@[simp] theorem State.reject_schedule (c : ErrCode) : (s.reject c).schedule = s.schedule := rfl
@[simp] theorem State.reject_reply (c : ErrCode) : (s.reject c).reply = s.reply := rfl
@[simp] theorem State.reject_races (c : ErrCode) : (s.reject c).races = s.races := rfl
@[simp] theorem State.reject_draws (c : ErrCode) : (s.reject c).draws = s.draws := rfl

/-! ### answer -/

@[simp] theorem State.answer_acc (v : Word) : (s.answer v).acc = s.acc := rfl
@[simp] theorem State.answer_lanes (v : Word) : (s.answer v).lanes = s.lanes := rfl
@[simp] theorem State.answer_seeds (v : Word) : (s.answer v).seeds = s.seeds := rfl
@[simp] theorem State.answer_dig (v : Word) : (s.answer v).dig = s.dig := rfl
@[simp] theorem State.answer_dvalid (v : Word) : (s.answer v).dvalid = s.dvalid := rfl
@[simp] theorem State.answer_len (v : Word) : (s.answer v).len = s.len := rfl
@[simp] theorem State.answer_off (v : Word) : (s.answer v).off = s.off := rfl
@[simp] theorem State.answer_k (v : Word) : (s.answer v).k = s.k := rfl
@[simp] theorem State.answer_phase (v : Word) : (s.answer v).phase = s.phase := rfl
@[simp] theorem State.answer_err (v : Word) : (s.answer v).err = s.err := rfl
@[simp] theorem State.answer_input (v : Word) : (s.answer v).input = s.input := rfl
@[simp] theorem State.answer_cfg (v : Word) : (s.answer v).cfg = s.cfg := rfl
@[simp] theorem State.answer_schedule (v : Word) : (s.answer v).schedule = s.schedule := rfl
@[simp] theorem State.answer_reply (v : Word) : (s.answer v).reply = some v := rfl
@[simp] theorem State.answer_races (v : Word) : (s.answer v).races = s.races := rfl
@[simp] theorem State.answer_draws (v : Word) : (s.answer v).draws = s.draws := rfl

/-! ### withSchedule -/

@[simp] theorem State.withSchedule_acc (ts : List Turn) : (s.withSchedule ts).acc = s.acc := rfl
@[simp] theorem State.withSchedule_lanes (ts : List Turn) : (s.withSchedule ts).lanes = s.lanes := rfl
@[simp] theorem State.withSchedule_seeds (ts : List Turn) : (s.withSchedule ts).seeds = s.seeds := rfl
@[simp] theorem State.withSchedule_dig (ts : List Turn) : (s.withSchedule ts).dig = s.dig := rfl
@[simp] theorem State.withSchedule_dvalid (ts : List Turn) : (s.withSchedule ts).dvalid = s.dvalid := rfl
@[simp] theorem State.withSchedule_len (ts : List Turn) : (s.withSchedule ts).len = s.len := rfl
@[simp] theorem State.withSchedule_off (ts : List Turn) : (s.withSchedule ts).off = s.off := rfl
@[simp] theorem State.withSchedule_k (ts : List Turn) : (s.withSchedule ts).k = s.k := rfl
@[simp] theorem State.withSchedule_phase (ts : List Turn) : (s.withSchedule ts).phase = s.phase := rfl
@[simp] theorem State.withSchedule_err (ts : List Turn) : (s.withSchedule ts).err = s.err := rfl
@[simp] theorem State.withSchedule_input (ts : List Turn) : (s.withSchedule ts).input = s.input := rfl
@[simp] theorem State.withSchedule_cfg (ts : List Turn) : (s.withSchedule ts).cfg = s.cfg := rfl
@[simp] theorem State.withSchedule_schedule (ts : List Turn) : (s.withSchedule ts).schedule = ts := rfl
@[simp] theorem State.withSchedule_reply (ts : List Turn) : (s.withSchedule ts).reply = s.reply := rfl
@[simp] theorem State.withSchedule_races (ts : List Turn) : (s.withSchedule ts).races = s.races := rfl
@[simp] theorem State.withSchedule_draws (ts : List Turn) : (s.withSchedule ts).draws = s.draws := rfl

/-! ### setLen -/

@[simp] theorem State.setLen_acc (v : Word) : (s.setLen v).acc = s.acc := rfl
@[simp] theorem State.setLen_lanes (v : Word) : (s.setLen v).lanes = s.lanes := rfl
@[simp] theorem State.setLen_seeds (v : Word) : (s.setLen v).seeds = s.seeds := rfl
@[simp] theorem State.setLen_dig (v : Word) : (s.setLen v).dig = s.dig := rfl
@[simp] theorem State.setLen_dvalid (v : Word) : (s.setLen v).dvalid = s.dvalid := rfl
@[simp] theorem State.setLen_len (v : Word) : (s.setLen v).len = v := rfl
@[simp] theorem State.setLen_off (v : Word) : (s.setLen v).off = s.off := rfl
@[simp] theorem State.setLen_k (v : Word) : (s.setLen v).k = s.k := rfl
@[simp] theorem State.setLen_phase (v : Word) : (s.setLen v).phase = s.phase := rfl
@[simp] theorem State.setLen_err (v : Word) : (s.setLen v).err = s.err := rfl
@[simp] theorem State.setLen_input (v : Word) : (s.setLen v).input = s.input := rfl
@[simp] theorem State.setLen_cfg (v : Word) : (s.setLen v).cfg = s.cfg := rfl
@[simp] theorem State.setLen_schedule (v : Word) : (s.setLen v).schedule = s.schedule := rfl
@[simp] theorem State.setLen_reply (v : Word) : (s.setLen v).reply = s.reply := rfl
@[simp] theorem State.setLen_races (v : Word) : (s.setLen v).races = s.races := rfl
@[simp] theorem State.setLen_draws (v : Word) : (s.setLen v).draws = s.draws := rfl

/-! ### setOff -/

@[simp] theorem State.setOff_acc (v : Word) : (s.setOff v).acc = s.acc := rfl
@[simp] theorem State.setOff_lanes (v : Word) : (s.setOff v).lanes = s.lanes := rfl
@[simp] theorem State.setOff_seeds (v : Word) : (s.setOff v).seeds = s.seeds := rfl
@[simp] theorem State.setOff_dig (v : Word) : (s.setOff v).dig = s.dig := rfl
@[simp] theorem State.setOff_dvalid (v : Word) : (s.setOff v).dvalid = s.dvalid := rfl
@[simp] theorem State.setOff_len (v : Word) : (s.setOff v).len = s.len := rfl
@[simp] theorem State.setOff_off (v : Word) : (s.setOff v).off = v := rfl
@[simp] theorem State.setOff_k (v : Word) : (s.setOff v).k = s.k := rfl
@[simp] theorem State.setOff_phase (v : Word) : (s.setOff v).phase = s.phase := rfl
@[simp] theorem State.setOff_err (v : Word) : (s.setOff v).err = s.err := rfl
@[simp] theorem State.setOff_input (v : Word) : (s.setOff v).input = s.input := rfl
@[simp] theorem State.setOff_cfg (v : Word) : (s.setOff v).cfg = s.cfg := rfl
@[simp] theorem State.setOff_schedule (v : Word) : (s.setOff v).schedule = s.schedule := rfl
@[simp] theorem State.setOff_reply (v : Word) : (s.setOff v).reply = s.reply := rfl
@[simp] theorem State.setOff_races (v : Word) : (s.setOff v).races = s.races := rfl
@[simp] theorem State.setOff_draws (v : Word) : (s.setOff v).draws = s.draws := rfl

/-! ### clearCall -/

@[simp] theorem State.clearCall_acc : (s.clearCall).acc = quadOf 0 := rfl
@[simp] theorem State.clearCall_lanes : (s.clearCall).lanes = quadOf 0 := rfl
@[simp] theorem State.clearCall_seeds : (s.clearCall).seeds = zeroSeeds := rfl
@[simp] theorem State.clearCall_dig : (s.clearCall).dig = zeroBytes32 := rfl
@[simp] theorem State.clearCall_dvalid : (s.clearCall).dvalid = false := rfl
@[simp] theorem State.clearCall_len : (s.clearCall).len = s.len := rfl
@[simp] theorem State.clearCall_off : (s.clearCall).off = 0 := rfl
@[simp] theorem State.clearCall_k : (s.clearCall).k = 0 := rfl
@[simp] theorem State.clearCall_phase : (s.clearCall).phase = s.phase := rfl
@[simp] theorem State.clearCall_err : (s.clearCall).err = .none := rfl
@[simp] theorem State.clearCall_input : (s.clearCall).input = s.input := rfl
@[simp] theorem State.clearCall_cfg : (s.clearCall).cfg = s.cfg := rfl
@[simp] theorem State.clearCall_schedule : (s.clearCall).schedule = s.schedule := rfl
@[simp] theorem State.clearCall_reply : (s.clearCall).reply = s.reply := rfl
@[simp] theorem State.clearCall_races : (s.clearCall).races = s.races := rfl
@[simp] theorem State.clearCall_draws : (s.clearCall).draws = s.draws := rfl

/-! ### enter -/

@[simp] theorem State.enter_acc (ph : Phase) : (s.enter ph).acc = s.acc := rfl
@[simp] theorem State.enter_lanes (ph : Phase) : (s.enter ph).lanes = s.lanes := rfl
@[simp] theorem State.enter_seeds (ph : Phase) : (s.enter ph).seeds = s.seeds := rfl
@[simp] theorem State.enter_dig (ph : Phase) : (s.enter ph).dig = s.dig := rfl
@[simp] theorem State.enter_dvalid (ph : Phase) : (s.enter ph).dvalid = s.dvalid := rfl
@[simp] theorem State.enter_len (ph : Phase) : (s.enter ph).len = s.len := rfl
@[simp] theorem State.enter_off (ph : Phase) : (s.enter ph).off = s.off := rfl
@[simp] theorem State.enter_k (ph : Phase) : (s.enter ph).k = s.k := rfl
@[simp] theorem State.enter_phase (ph : Phase) : (s.enter ph).phase = ph := rfl
@[simp] theorem State.enter_err (ph : Phase) : (s.enter ph).err = s.err := rfl
@[simp] theorem State.enter_input (ph : Phase) : (s.enter ph).input = s.input := rfl
@[simp] theorem State.enter_cfg (ph : Phase) : (s.enter ph).cfg = s.cfg := rfl
@[simp] theorem State.enter_schedule (ph : Phase) : (s.enter ph).schedule = s.schedule := rfl
@[simp] theorem State.enter_reply (ph : Phase) : (s.enter ph).reply = s.reply := rfl
@[simp] theorem State.enter_races (ph : Phase) : (s.enter ph).races = s.races := rfl
@[simp] theorem State.enter_draws (ph : Phase) : (s.enter ph).draws = s.draws := rfl

/-! ### startRun -/

@[simp] theorem State.startRun_acc : (s.startRun).acc = quadOf 0 := rfl
@[simp] theorem State.startRun_lanes : (s.startRun).lanes = quadOf 0 := rfl
@[simp] theorem State.startRun_seeds : (s.startRun).seeds = zeroSeeds := rfl
@[simp] theorem State.startRun_dig : (s.startRun).dig = zeroBytes32 := rfl
@[simp] theorem State.startRun_dvalid : (s.startRun).dvalid = false := rfl
@[simp] theorem State.startRun_len : (s.startRun).len = s.len := rfl
@[simp] theorem State.startRun_off : (s.startRun).off = 0 := rfl
@[simp] theorem State.startRun_k : (s.startRun).k = 0 := rfl
@[simp] theorem State.startRun_phase : (s.startRun).phase = .fold := rfl
@[simp] theorem State.startRun_err : (s.startRun).err = .none := rfl
@[simp] theorem State.startRun_input : (s.startRun).input = s.input := rfl
@[simp] theorem State.startRun_cfg : (s.startRun).cfg = s.cfg := rfl
@[simp] theorem State.startRun_schedule : (s.startRun).schedule = s.schedule := rfl
@[simp] theorem State.startRun_reply : (s.startRun).reply = s.reply := rfl
@[simp] theorem State.startRun_races : (s.startRun).races = [] := rfl
@[simp] theorem State.startRun_draws : (s.startRun).draws = s.draws := rfl

/-! ### loadLanes -/

@[simp] theorem State.loadLanes_acc (ws : Quad Word) : (s.loadLanes ws).acc = s.acc := rfl
@[simp] theorem State.loadLanes_lanes (ws : Quad Word) : (s.loadLanes ws).lanes = ws := rfl
@[simp] theorem State.loadLanes_seeds (ws : Quad Word) : (s.loadLanes ws).seeds = s.seeds := rfl
@[simp] theorem State.loadLanes_dig (ws : Quad Word) : (s.loadLanes ws).dig = s.dig := rfl
@[simp] theorem State.loadLanes_dvalid (ws : Quad Word) : (s.loadLanes ws).dvalid = s.dvalid := rfl
@[simp] theorem State.loadLanes_len (ws : Quad Word) : (s.loadLanes ws).len = s.len := rfl
@[simp] theorem State.loadLanes_off (ws : Quad Word) : (s.loadLanes ws).off = s.off := rfl
@[simp] theorem State.loadLanes_k (ws : Quad Word) : (s.loadLanes ws).k = s.k := rfl
@[simp] theorem State.loadLanes_phase (ws : Quad Word) : (s.loadLanes ws).phase = s.phase := rfl
@[simp] theorem State.loadLanes_err (ws : Quad Word) : (s.loadLanes ws).err = s.err := rfl
@[simp] theorem State.loadLanes_input (ws : Quad Word) : (s.loadLanes ws).input = s.input := rfl
@[simp] theorem State.loadLanes_cfg (ws : Quad Word) : (s.loadLanes ws).cfg = s.cfg := rfl
@[simp] theorem State.loadLanes_schedule (ws : Quad Word) : (s.loadLanes ws).schedule = s.schedule := rfl
@[simp] theorem State.loadLanes_reply (ws : Quad Word) : (s.loadLanes ws).reply = s.reply := rfl
@[simp] theorem State.loadLanes_races (ws : Quad Word) : (s.loadLanes ws).races = s.races := rfl
@[simp] theorem State.loadLanes_draws (ws : Quad Word) : (s.loadLanes ws).draws = s.draws := rfl

/-! ### xorAcc -/

@[simp] theorem State.xorAcc_acc (ws : Quad Word) : (s.xorAcc ws).acc = quadXor s.acc ws := rfl
@[simp] theorem State.xorAcc_lanes (ws : Quad Word) : (s.xorAcc ws).lanes = s.lanes := rfl
@[simp] theorem State.xorAcc_seeds (ws : Quad Word) : (s.xorAcc ws).seeds = s.seeds := rfl
@[simp] theorem State.xorAcc_dig (ws : Quad Word) : (s.xorAcc ws).dig = s.dig := rfl
@[simp] theorem State.xorAcc_dvalid (ws : Quad Word) : (s.xorAcc ws).dvalid = s.dvalid := rfl
@[simp] theorem State.xorAcc_len (ws : Quad Word) : (s.xorAcc ws).len = s.len := rfl
@[simp] theorem State.xorAcc_off (ws : Quad Word) : (s.xorAcc ws).off = s.off := rfl
@[simp] theorem State.xorAcc_k (ws : Quad Word) : (s.xorAcc ws).k = s.k := rfl
@[simp] theorem State.xorAcc_phase (ws : Quad Word) : (s.xorAcc ws).phase = s.phase := rfl
@[simp] theorem State.xorAcc_err (ws : Quad Word) : (s.xorAcc ws).err = s.err := rfl
@[simp] theorem State.xorAcc_input (ws : Quad Word) : (s.xorAcc ws).input = s.input := rfl
@[simp] theorem State.xorAcc_cfg (ws : Quad Word) : (s.xorAcc ws).cfg = s.cfg := rfl
@[simp] theorem State.xorAcc_schedule (ws : Quad Word) : (s.xorAcc ws).schedule = s.schedule := rfl
@[simp] theorem State.xorAcc_reply (ws : Quad Word) : (s.xorAcc ws).reply = s.reply := rfl
@[simp] theorem State.xorAcc_races (ws : Quad Word) : (s.xorAcc ws).races = s.races := rfl
@[simp] theorem State.xorAcc_draws (ws : Quad Word) : (s.xorAcc ws).draws = s.draws := rfl

/-! ### absorbLanes -/

@[simp] theorem State.absorbLanes_acc (ws : Quad Word) : (s.absorbLanes ws).acc = quadXor s.acc ws := rfl
@[simp] theorem State.absorbLanes_lanes (ws : Quad Word) : (s.absorbLanes ws).lanes = ws := rfl
@[simp] theorem State.absorbLanes_seeds (ws : Quad Word) : (s.absorbLanes ws).seeds = s.seeds := rfl
@[simp] theorem State.absorbLanes_dig (ws : Quad Word) : (s.absorbLanes ws).dig = s.dig := rfl
@[simp] theorem State.absorbLanes_dvalid (ws : Quad Word) : (s.absorbLanes ws).dvalid = s.dvalid := rfl
@[simp] theorem State.absorbLanes_len (ws : Quad Word) : (s.absorbLanes ws).len = s.len := rfl
@[simp] theorem State.absorbLanes_off (ws : Quad Word) : (s.absorbLanes ws).off = s.off + 32 := rfl
@[simp] theorem State.absorbLanes_k (ws : Quad Word) : (s.absorbLanes ws).k = s.k := rfl
@[simp] theorem State.absorbLanes_phase (ws : Quad Word) : (s.absorbLanes ws).phase = s.phase := rfl
@[simp] theorem State.absorbLanes_err (ws : Quad Word) : (s.absorbLanes ws).err = s.err := rfl
@[simp] theorem State.absorbLanes_input (ws : Quad Word) : (s.absorbLanes ws).input = s.input := rfl
@[simp] theorem State.absorbLanes_cfg (ws : Quad Word) : (s.absorbLanes ws).cfg = s.cfg := rfl
@[simp] theorem State.absorbLanes_schedule (ws : Quad Word) : (s.absorbLanes ws).schedule = s.schedule := rfl
@[simp] theorem State.absorbLanes_reply (ws : Quad Word) : (s.absorbLanes ws).reply = s.reply := rfl
@[simp] theorem State.absorbLanes_races (ws : Quad Word) : (s.absorbLanes ws).races = s.races := rfl
@[simp] theorem State.absorbLanes_draws (ws : Quad Word) : (s.absorbLanes ws).draws = s.draws := rfl

/-! ### takeSeeds -/

@[simp] theorem State.takeSeeds_acc : (s.takeSeeds).acc = s.acc := rfl
@[simp] theorem State.takeSeeds_lanes : (s.takeSeeds).lanes = s.lanes := rfl
@[simp] theorem State.takeSeeds_seeds : (s.takeSeeds).seeds = seedsOf s.acc := rfl
@[simp] theorem State.takeSeeds_dig : (s.takeSeeds).dig = s.dig := rfl
@[simp] theorem State.takeSeeds_dvalid : (s.takeSeeds).dvalid = s.dvalid := rfl
@[simp] theorem State.takeSeeds_len : (s.takeSeeds).len = s.len := rfl
@[simp] theorem State.takeSeeds_off : (s.takeSeeds).off = s.off := rfl
@[simp] theorem State.takeSeeds_k : (s.takeSeeds).k = s.k := rfl
@[simp] theorem State.takeSeeds_phase : (s.takeSeeds).phase = s.phase := rfl
@[simp] theorem State.takeSeeds_err : (s.takeSeeds).err = s.err := rfl
@[simp] theorem State.takeSeeds_input : (s.takeSeeds).input = s.input := rfl
@[simp] theorem State.takeSeeds_cfg : (s.takeSeeds).cfg = s.cfg := rfl
@[simp] theorem State.takeSeeds_schedule : (s.takeSeeds).schedule = s.schedule := rfl
@[simp] theorem State.takeSeeds_reply : (s.takeSeeds).reply = s.reply := rfl
@[simp] theorem State.takeSeeds_races : (s.takeSeeds).races = s.races := rfl
@[simp] theorem State.takeSeeds_draws : (s.takeSeeds).draws = s.draws := rfl

/-! ### setK -/

@[simp] theorem State.setK_acc (n : BitVec 4) : (s.setK n).acc = s.acc := rfl
@[simp] theorem State.setK_lanes (n : BitVec 4) : (s.setK n).lanes = s.lanes := rfl
@[simp] theorem State.setK_seeds (n : BitVec 4) : (s.setK n).seeds = s.seeds := rfl
@[simp] theorem State.setK_dig (n : BitVec 4) : (s.setK n).dig = s.dig := rfl
@[simp] theorem State.setK_dvalid (n : BitVec 4) : (s.setK n).dvalid = s.dvalid := rfl
@[simp] theorem State.setK_len (n : BitVec 4) : (s.setK n).len = s.len := rfl
@[simp] theorem State.setK_off (n : BitVec 4) : (s.setK n).off = s.off := rfl
@[simp] theorem State.setK_k (n : BitVec 4) : (s.setK n).k = n := rfl
@[simp] theorem State.setK_phase (n : BitVec 4) : (s.setK n).phase = s.phase := rfl
@[simp] theorem State.setK_err (n : BitVec 4) : (s.setK n).err = s.err := rfl
@[simp] theorem State.setK_input (n : BitVec 4) : (s.setK n).input = s.input := rfl
@[simp] theorem State.setK_cfg (n : BitVec 4) : (s.setK n).cfg = s.cfg := rfl
@[simp] theorem State.setK_schedule (n : BitVec 4) : (s.setK n).schedule = s.schedule := rfl
@[simp] theorem State.setK_reply (n : BitVec 4) : (s.setK n).reply = s.reply := rfl
@[simp] theorem State.setK_races (n : BitVec 4) : (s.setK n).races = s.races := rfl
@[simp] theorem State.setK_draws (n : BitVec 4) : (s.setK n).draws = s.draws := rfl

/-! ### settleRaces -/

@[simp] theorem State.settleRaces_lanes : (s.settleRaces).lanes = s.lanes := by
  unfold State.settleRaces; split <;> rfl
@[simp] theorem State.settleRaces_seeds : (s.settleRaces).seeds = s.seeds := by
  unfold State.settleRaces; split <;> rfl
@[simp] theorem State.settleRaces_dig : (s.settleRaces).dig = s.dig := by
  unfold State.settleRaces; split <;> rfl
@[simp] theorem State.settleRaces_dvalid : (s.settleRaces).dvalid = s.dvalid := by
  unfold State.settleRaces; split <;> rfl
@[simp] theorem State.settleRaces_len : (s.settleRaces).len = s.len := by
  unfold State.settleRaces; split <;> rfl
@[simp] theorem State.settleRaces_off : (s.settleRaces).off = s.off := by
  unfold State.settleRaces; split <;> rfl
@[simp] theorem State.settleRaces_k : (s.settleRaces).k = s.k := by
  unfold State.settleRaces; split <;> rfl
@[simp] theorem State.settleRaces_phase : (s.settleRaces).phase = s.phase := by
  unfold State.settleRaces; split <;> rfl
@[simp] theorem State.settleRaces_err : (s.settleRaces).err = s.err := by
  unfold State.settleRaces; split <;> rfl
@[simp] theorem State.settleRaces_input : (s.settleRaces).input = s.input := by
  unfold State.settleRaces; split <;> rfl
@[simp] theorem State.settleRaces_cfg : (s.settleRaces).cfg = s.cfg := by
  unfold State.settleRaces; split <;> rfl
@[simp] theorem State.settleRaces_schedule : (s.settleRaces).schedule = s.schedule := by
  unfold State.settleRaces; split <;> rfl
@[simp] theorem State.settleRaces_reply : (s.settleRaces).reply = s.reply := by
  unfold State.settleRaces; split <;> rfl
@[simp] theorem State.settleRaces_races : (s.settleRaces).races = s.races := by
  unfold State.settleRaces; split <;> rfl
/-- A RUN that no store has raced with keeps its accumulators. -/
theorem State.settleRaces_of_no_races (h : s.races = []) : s.settleRaces = s := by
  unfold State.settleRaces
  rw [h]

/-- A RUN that a store has raced with has free digest words. -/
theorem State.settleRaces_of_races (h : s.races ≠ []) :
    s.settleRaces = { s with acc := Config.racedDigest s.draws, draws := s.draws + 1 } := by
  unfold State.settleRaces
  split
  · next hr => exact absurd hr h
  · rfl

/-- The count of free choices never goes back. -/
theorem State.le_settleRaces_draws : s.draws ≤ s.settleRaces.draws := by
  unfold State.settleRaces
  split
  · exact Nat.le_refl _
  · exact Nat.le_succ _

/-! ### emitDigest -/

@[simp] theorem State.emitDigest_acc : (s.emitDigest).acc = s.acc := rfl
@[simp] theorem State.emitDigest_lanes : (s.emitDigest).lanes = s.lanes := rfl
@[simp] theorem State.emitDigest_seeds : (s.emitDigest).seeds = s.seeds := rfl
@[simp] theorem State.emitDigest_dig : (s.emitDigest).dig = digestBytes s.acc := rfl
@[simp] theorem State.emitDigest_dvalid : (s.emitDigest).dvalid = true := rfl
@[simp] theorem State.emitDigest_len : (s.emitDigest).len = s.len := rfl
@[simp] theorem State.emitDigest_off : (s.emitDigest).off = s.off := rfl
@[simp] theorem State.emitDigest_k : (s.emitDigest).k = s.k := rfl
@[simp] theorem State.emitDigest_phase : (s.emitDigest).phase = s.phase := rfl
@[simp] theorem State.emitDigest_err : (s.emitDigest).err = s.err := rfl
@[simp] theorem State.emitDigest_input : (s.emitDigest).input = s.input := rfl
@[simp] theorem State.emitDigest_cfg : (s.emitDigest).cfg = s.cfg := rfl
@[simp] theorem State.emitDigest_schedule : (s.emitDigest).schedule = s.schedule := rfl
@[simp] theorem State.emitDigest_reply : (s.emitDigest).reply = s.reply := rfl
@[simp] theorem State.emitDigest_races : (s.emitDigest).races = s.races := rfl
@[simp] theorem State.emitDigest_draws : (s.emitDigest).draws = s.draws := rfl

/-! ### mixSeed -/

@[simp] theorem State.mixSeed_acc (n : Nat) : (s.mixSeed n).acc = quadXor s.acc (mixWords s.cfg.gen (seedGet s.seeds n)) := rfl
@[simp] theorem State.mixSeed_lanes (n : Nat) : (s.mixSeed n).lanes = s.lanes := rfl
@[simp] theorem State.mixSeed_seeds (n : Nat) : (s.mixSeed n).seeds = s.seeds := rfl
@[simp] theorem State.mixSeed_dig (n : Nat) : (s.mixSeed n).dig = s.dig := rfl
@[simp] theorem State.mixSeed_dvalid (n : Nat) : (s.mixSeed n).dvalid = s.dvalid := rfl
@[simp] theorem State.mixSeed_len (n : Nat) : (s.mixSeed n).len = s.len := rfl
@[simp] theorem State.mixSeed_off (n : Nat) : (s.mixSeed n).off = s.off := rfl
@[simp] theorem State.mixSeed_k (n : Nat) : (s.mixSeed n).k = s.k := rfl
@[simp] theorem State.mixSeed_phase (n : Nat) : (s.mixSeed n).phase = s.phase := rfl
@[simp] theorem State.mixSeed_err (n : Nat) : (s.mixSeed n).err = s.err := rfl
@[simp] theorem State.mixSeed_input (n : Nat) : (s.mixSeed n).input = s.input := rfl
@[simp] theorem State.mixSeed_cfg (n : Nat) : (s.mixSeed n).cfg = s.cfg := rfl
@[simp] theorem State.mixSeed_schedule (n : Nat) : (s.mixSeed n).schedule = s.schedule := rfl
@[simp] theorem State.mixSeed_reply (n : Nat) : (s.mixSeed n).reply = s.reply := rfl
@[simp] theorem State.mixSeed_races (n : Nat) : (s.mixSeed n).races = s.races := rfl
@[simp] theorem State.mixSeed_draws (n : Nat) : (s.mixSeed n).draws = s.draws := rfl

/-! ### storeByte -/

@[simp] theorem State.storeByte_acc (a : Nat) (v : Byte) : (s.storeByte a v).acc = s.acc := rfl
@[simp] theorem State.storeByte_lanes (a : Nat) (v : Byte) : (s.storeByte a v).lanes = s.lanes := rfl
@[simp] theorem State.storeByte_seeds (a : Nat) (v : Byte) : (s.storeByte a v).seeds = s.seeds := rfl
@[simp] theorem State.storeByte_dig (a : Nat) (v : Byte) : (s.storeByte a v).dig = s.dig := rfl
@[simp] theorem State.storeByte_dvalid (a : Nat) (v : Byte) : (s.storeByte a v).dvalid = s.dvalid := rfl
@[simp] theorem State.storeByte_len (a : Nat) (v : Byte) : (s.storeByte a v).len = s.len := rfl
@[simp] theorem State.storeByte_off (a : Nat) (v : Byte) : (s.storeByte a v).off = s.off := rfl
@[simp] theorem State.storeByte_k (a : Nat) (v : Byte) : (s.storeByte a v).k = s.k := rfl
@[simp] theorem State.storeByte_phase (a : Nat) (v : Byte) : (s.storeByte a v).phase = s.phase := rfl
@[simp] theorem State.storeByte_err (a : Nat) (v : Byte) : (s.storeByte a v).err = s.err := rfl
@[simp] theorem State.storeByte_input (a : Nat) (v : Byte) : (s.storeByte a v).input = s.input.write a v := rfl
@[simp] theorem State.storeByte_cfg (a : Nat) (v : Byte) : (s.storeByte a v).cfg = s.cfg := rfl
@[simp] theorem State.storeByte_schedule (a : Nat) (v : Byte) : (s.storeByte a v).schedule = s.schedule := rfl
@[simp] theorem State.storeByte_reply (a : Nat) (v : Byte) : (s.storeByte a v).reply = s.reply := rfl
@[simp] theorem State.storeByte_races (a : Nat) (v : Byte) : (s.storeByte a v).races = if s.storeRaces a then ⟨a, s.input.read a, s.draws⟩ :: s.races else s.races := rfl
@[simp] theorem State.storeByte_draws (a : Nat) (v : Byte) : (s.storeByte a v).draws = if s.storeRaces a then s.draws + 1 else s.draws := rfl

/-! ### resetEngine -/

@[simp] theorem State.resetEngine_acc : (s.resetEngine).acc = quadOf 0 := rfl
@[simp] theorem State.resetEngine_lanes : (s.resetEngine).lanes = quadOf 0 := rfl
@[simp] theorem State.resetEngine_seeds : (s.resetEngine).seeds = zeroSeeds := rfl
@[simp] theorem State.resetEngine_dig : (s.resetEngine).dig = zeroBytes32 := rfl
@[simp] theorem State.resetEngine_dvalid : (s.resetEngine).dvalid = false := rfl
@[simp] theorem State.resetEngine_len : (s.resetEngine).len = 0 := rfl
@[simp] theorem State.resetEngine_off : (s.resetEngine).off = 0 := rfl
@[simp] theorem State.resetEngine_k : (s.resetEngine).k = 0 := rfl
@[simp] theorem State.resetEngine_phase : (s.resetEngine).phase = .idle := rfl
@[simp] theorem State.resetEngine_err : (s.resetEngine).err = .none := rfl
@[simp] theorem State.resetEngine_input : (s.resetEngine).input = s.input := rfl
@[simp] theorem State.resetEngine_cfg : (s.resetEngine).cfg = s.cfg := rfl
@[simp] theorem State.resetEngine_schedule : (s.resetEngine).schedule = s.schedule := rfl
@[simp] theorem State.resetEngine_reply : (s.resetEngine).reply = s.reply := rfl
@[simp] theorem State.resetEngine_races : (s.resetEngine).races = [] := rfl
@[simp] theorem State.resetEngine_draws : (s.resetEngine).draws = s.draws := rfl

/-! ### BUSY -/

@[simp] theorem State.busy_eq_true : s.busy = true ↔ s.phase ≠ .idle := by simp [State.busy]

@[simp] theorem State.busy_eq_false : s.busy = false ↔ s.phase = .idle := by simp [State.busy]

@[simp] theorem State.storeRaces_eq_true (a : Nat) :
    s.storeRaces a = true ↔ s.phase ≠ .idle ∧ a < s.len.toNat := by simp [State.storeRaces]

end Sys2Proof.Machine
end

