-- ==== Sys2Proof/Laws/Ops.lean ====
section
/-! SUPPORT. One lemma per shared operation that says everything it can do. Later proofs cite these instead of
unfolding the operations. -/

namespace Sys2Proof.Machine

/-! ### Acceptance -/

@[simp] theorem whenIdle_of_idle {s : State} (h : s.phase = .idle) (r : Result) : whenIdle s r = r := by
  simp [whenIdle, h]

@[simp] theorem whenIdle_of_busy {s : State} (h : s.phase ≠ .idle) (r : Result) :
    whenIdle s r = .next (s.reject .busy) := by
  simp [whenIdle, h]

/-- What a command that is accepted only while IDLE can do: be rejected, or be carried out. -/
theorem whenIdle_eq_next {s t : State} {r : Result} (h : whenIdle s r = .next t) :
    (s.phase ≠ .idle ∧ t = s.reject .busy) ∨ (s.phase = .idle ∧ r = .next t) := by
  by_cases hi : s.phase = .idle
  · exact .inr ⟨hi, by simpa [hi] using h⟩
  · rw [whenIdle_of_busy hi] at h
    cases h
    exact .inl ⟨hi, rfl⟩

theorem whenLenFits_of_le {s : State} (h : s.len.toNat ≤ s.cfg.lenMax.val) (r : Result) : whenLenFits s r = r := by
  simp [whenLenFits, Nat.not_lt.mpr h]

theorem whenLenFits_of_lt {s : State} (h : s.cfg.lenMax.val < s.len.toNat) (r : Result) :
    whenLenFits s r = .next (s.reject .lenRange) := by
  simp [whenLenFits, h]

/-- What a command that reads the input memory can do when it is not BUSY that rejects it. -/
theorem whenLenFits_eq_next {s t : State} {r : Result} (h : whenLenFits s r = .next t) :
    (s.cfg.lenMax.val < s.len.toNat ∧ t = s.reject .lenRange) ∨
    (s.len.toNat ≤ s.cfg.lenMax.val ∧ r = .next t) := by
  by_cases hl : s.cfg.lenMax.val < s.len.toNat
  · rw [whenLenFits_of_lt hl] at h
    cases h
    exact .inl ⟨hl, rfl⟩
  · have hl := Nat.not_lt.mp hl
    exact .inr ⟨hl, by rwa [whenLenFits_of_le hl] at h⟩

/-! ### The chunk loader -/

@[simp] theorem raceView_nil (a : Nat) (cur : Option Byte) : raceView [] a cur = cur := rfl

theorem raceView_cons (r : Race) (rs : List Race) (a : Nat) (cur : Option Byte) :
    raceView (r :: rs) a cur =
      if r.addr = a then (if Config.raceTakesNew r.draw then cur else raceView rs a r.old) else raceView rs a cur := rfl

/-- Without races a RUN reads what stands in memory. -/
@[simp] theorem State.runByte_of_no_races {s : State} (h : s.races = []) : s.runByte = s.commandByte := by
  funext a
  simp [State.runByte, State.commandByte, h]

theorem padded_of_lt {f : Nat → Option Byte} {n a : Nat} (h : a < n) : padded f n a = f a := by simp [padded, h]

theorem padded_of_le {f : Nat → Option Byte} {n a : Nat} (h : n ≤ a) : padded f n a = some 0 := by
  simp [padded, Nat.not_lt.mpr h]

/-- The padded view depends on the bytes below the input's length only. -/
theorem padded_congr {f g : Nat → Option Byte} {n : Nat} (h : ∀ a, a < n → f a = g a) : padded f n = padded g n := by
  funext a
  by_cases ha : a < n
  · rw [padded_of_lt ha, padded_of_lt ha, h a ha]
  · rw [padded_of_le (Nat.not_lt.mp ha), padded_of_le (Nat.not_lt.mp ha)]

theorem chunkLanes_congr {f g : Nat → Option Byte} {n : Nat} (h : ∀ a, a < n → f a = g a) (o : Nat) :
    chunkLanes f n o = chunkLanes g n o := by
  simp only [chunkLanes, padded_congr h]

/-- The lanes depend on the thirty-two bytes of the chunk only. -/
theorem lanesAt_congr {f g : Nat → Byte} {o : Nat} (h : ∀ i, i < 32 → f (o + i) = g (o + i)) :
    lanesAt f o = lanesAt g o := by
  have key : ∀ k, k < 4 → octetAt f (o + 8 * k) = octetAt g (o + 8 * k) := fun k hk => by
    simp only [octetAt, Nat.add_assoc, Octet.mk.injEq]
    exact ⟨h _ (by omega), h _ (by omega), h _ (by omega), h _ (by omega), h _ (by omega), h _ (by omega),
      h _ (by omega), h _ (by omega)⟩
  have e0 := key 0 (by omega)
  have e1 := key 1 (by omega)
  have e2 := key 2 (by omega)
  have e3 := key 3 (by omega)
  simp only [Nat.mul_zero, Nat.add_zero, Nat.mul_one, Nat.reduceMul] at e0 e1 e2 e3
  simp only [lanesAt, bytes32At, e0, e1, e2, e3]

/-- A chunk whose bytes below the input's length all have values loads, and its lanes are those of the padded view. -/
theorem chunkLanes_of_written {f : Nat → Option Byte} {n o : Nat}
    (h : ∀ a, o ≤ a → a < o + 32 → a < n → (f a).isSome = true) :
    chunkLanes f n o = some (lanesAt (fun a => if a < n then (f a).getD 0 else 0) o) := by
  have hall : (List.range 32).all (fun i => (padded f n (o + i)).isSome) = true := by
    refine List.all_eq_true.mpr fun i hi => ?_
    have hi := List.mem_range.mp hi
    by_cases hn : o + i < n
    · rw [padded_of_lt hn]
      exact h _ (by omega) (by omega) hn
    · rw [padded_of_le (Nat.not_lt.mp hn)]
      rfl
  rw [chunkLanes, if_pos hall]
  refine congrArg some (lanesAt_congr fun i _ => ?_)
  by_cases hn : o + i < n <;> simp [padded, hn]

/-- A chunk with a byte below the input's length that has no value does not load. -/
theorem chunkLanes_of_unwritten {f : Nat → Option Byte} {n o a : Nat} (h1 : o ≤ a) (h2 : a < o + 32) (h3 : a < n)
    (h : f a = none) : chunkLanes f n o = none := by
  refine if_neg fun hall => ?_
  have := List.all_eq_true.mp hall (a - o) (List.mem_range.mpr (by omega))
  rw [Nat.add_sub_cancel' h1, padded_of_lt h3, h] at this
  simp at this

/-- When a chunk loads, each of its bytes below the input's length has a value. -/
theorem written_of_chunkLanes {f : Nat → Option Byte} {n o : Nat} {ws : Quad Word} (h : chunkLanes f n o = some ws) :
    ∀ a, o ≤ a → a < o + 32 → a < n → (f a).isSome = true := by
  intro a h1 h2 h3
  by_contra hc
  rw [Option.not_isSome_iff_eq_none] at hc
  rw [chunkLanes_of_unwritten h1 h2 h3 hc] at h
  cases h

/-- When a chunk loads, its lanes are those of the padded view. -/
theorem lanes_of_chunkLanes {f : Nat → Option Byte} {n o : Nat} {ws : Quad Word} (h : chunkLanes f n o = some ws) :
    ws = lanesAt (fun a => if a < n then (f a).getD 0 else 0) o :=
  Option.some.inj (h.symm.trans (chunkLanes_of_written (written_of_chunkLanes h)))

/-- What loading a chunk can do: go on with the chunk's lanes, or stop at a byte nothing has written. -/
theorem withChunk_eq_next {s t : State} {f : Nat → Option Byte} {g : Quad Word → State}
    (h : withChunk s f g = .next t) : ∃ ws, chunkLanes f s.len.toNat s.off.toNat = some ws ∧ t = g ws := by
  unfold withChunk at h
  split at h
  · next ws hw =>
    cases h
    exact ⟨ws, hw, rfl⟩
  · cases h

theorem withChunk_of_some {s : State} {f : Nat → Option Byte} {g : Quad Word → State} {ws : Quad Word}
    (h : chunkLanes f s.len.toNat s.off.toNat = some ws) : withChunk s f g = .next (g ws) := by
  simp [withChunk, h]

theorem withChunk_of_none {s : State} {f : Nat → Option Byte} {g : Quad Word → State}
    (h : chunkLanes f s.len.toNat s.off.toNat = none) : withChunk s f g = .fault .unwrittenInput := by
  simp [withChunk, h]

theorem withChunk_not_refused {s : State} {f : Nat → Option Byte} {g : Quad Word → State} {r : Refusal} :
    withChunk s f g ≠ .refused r := by
  unfold withChunk
  split <;> simp

/-! ### The host's stores -/

/-- Everything a store of one byte leaves in memory. -/
theorem State.storeByte_read (s : State) (a b : Nat) (v : Byte) :
    (s.storeByte a v).input.read b = if b = a then some v else s.input.read b := by
  rw [State.storeByte_input, Memory.read_write]

/-- What a store leaves alone: every register, the configuration, the schedule and the reply. -/
structure SameButStore (s t : State) : Prop where
  acc : t.acc = s.acc
  lanes : t.lanes = s.lanes
  seeds : t.seeds = s.seeds
  dig : t.dig = s.dig
  dvalid : t.dvalid = s.dvalid
  len : t.len = s.len
  off : t.off = s.off
  k : t.k = s.k
  phase : t.phase = s.phase
  err : t.err = s.err
  cfg : t.cfg = s.cfg
  schedule : t.schedule = s.schedule
  reply : t.reply = s.reply

theorem State.storeBytes_same (vs : List Byte) (s : State) (a : Nat) : SameButStore s (s.storeBytes a vs) := by
  induction vs generalizing s a with
  | nil => constructor <;> rfl
  | cons v vs ih =>
    obtain ⟨h1, h2, h3, h4, h5, h6, h7, h8, h9, h10, h11, h12, h13⟩ := ih (s.storeByte a v) (a + 1)
    constructor <;> assumption

/-- What a store of consecutive bytes leaves in memory. -/
theorem State.storeBytes_read (vs : List Byte) (s : State) (a b : Nat) :
    (s.storeBytes a vs).input.read b =
      if a ≤ b ∧ b < a + vs.length then vs[b - a]? else s.input.read b := by
  induction vs generalizing s a with
  | nil =>
    rw [if_neg (by simp only [List.length_nil]; omega)]
    rfl
  | cons v vs ih =>
    rw [State.storeBytes, ih, State.storeByte_read]
    by_cases hb : b = a
    · subst hb
      simp
    · by_cases hr : a + 1 ≤ b ∧ b < a + 1 + vs.length
      · rw [if_pos hr, if_pos (by simp only [List.length_cons]; omega), show b - a = b - (a + 1) + 1 by omega]
        simp
      · rw [if_neg hr, if_neg hb, if_neg (by simp only [List.length_cons]; omega)]

/-- A store keeps the canonical form. -/
theorem State.storeBytes_wf (vs : List Byte) {s : State} (h : s.input.wf) (a : Nat) : (s.storeBytes a vs).input.wf := by
  induction vs generalizing s a with
  | nil => exact h
  | cons v vs ih => exact ih (s := s.storeByte a v) (Memory.wf_write h a v) (a + 1)

/-- Every cell after a store was there before or is at a stored index. -/
theorem State.mem_storeBytes {vs : List Byte} {s : State} {a : Nat} {c : Host.Cell}
    (h : c ∈ (s.storeBytes a vs).input) : (a ≤ c.1 ∧ c.1 < a + vs.length) ∨ c ∈ s.input := by
  induction vs generalizing s a with
  | nil => exact .inr h
  | cons v vs ih =>
    rcases ih (s := s.storeByte a v) h with h | h
    · left
      simp only [List.length_cons]
      omega
    · rcases Memory.mem_write h with rfl | h
      · left
        simp
      · exact .inr h

/-- What a store does to the races: each recorded race was there before or is at a stored index below `LEN` of a RUN in
progress, with a free choice of its own. -/
theorem State.races_storeBytes {vs : List Byte} {s : State} {a : Nat} {r : Race}
    (h : r ∈ (s.storeBytes a vs).races) :
    (s.phase ≠ .idle ∧ r.addr < s.len.toNat ∧ a ≤ r.addr ∧ s.draws ≤ r.draw ∧ r.draw < (s.storeBytes a vs).draws) ∨
    r ∈ s.races := by
  have mono : ∀ (vs : List Byte) (s : State) (a : Nat), s.draws ≤ (s.storeBytes a vs).draws := by
    intro vs
    induction vs with
    | nil => exact fun s _ => Nat.le_refl s.draws
    | cons v vs ih =>
      intro s a
      refine Nat.le_trans ?_ (ih (s.storeByte a v) (a + 1))
      simp only [State.storeByte_draws]
      split <;> omega
  induction vs generalizing s a with
  | nil => exact .inr h
  | cons v vs ih =>
    rcases ih (s := s.storeByte a v) h with ⟨h1, h2, h3, h4, h5⟩ | h
    · refine .inl ⟨h1, h2, by omega, Nat.le_trans ?_ h4, h5⟩
      simp only [State.storeByte_draws]
      split <;> omega
    · simp only [State.storeByte_races] at h
      split at h
      · next hr =>
        rcases List.mem_cons.mp h with rfl | h
        · rw [State.storeRaces_eq_true] at hr
          refine .inl ⟨hr.1, hr.2, Nat.le_refl a, Nat.le_refl _, Nat.lt_of_lt_of_le ?_ (mono vs (s.storeByte a v) (a + 1))⟩
          simp [State.storeByte_draws, State.storeRaces, hr]
        · exact .inr h
      · exact .inr h

/-- A store while IDLE, or at or above `LEN`, races with nothing. -/
theorem State.storeBytes_no_race (vs : List Byte) {s : State} {a : Nat} (h : s.phase = .idle ∨ s.len.toNat ≤ a) :
    (s.storeBytes a vs).races = s.races ∧ (s.storeBytes a vs).draws = s.draws := by
  induction vs generalizing s a with
  | nil => exact ⟨rfl, rfl⟩
  | cons v vs ih =>
    have hn : s.storeRaces a = false := by
      rw [Bool.eq_false_iff, ne_eq, State.storeRaces_eq_true]
      rcases h with h | h
      · exact fun hc => hc.1 h
      · exact fun hc => absurd hc.2 (Nat.not_lt.mpr h)
    obtain ⟨h1, h2⟩ := ih (s := s.storeByte a v) (a := a + 1) (h.imp_right fun h => Nat.le_succ_of_le h)
    exact ⟨h1.trans (by simp [hn]), h2.trans (by simp [hn])⟩

end Sys2Proof.Machine
end

