-- ==== Sys2Proof/Laws/Exec.lean ====
section
/-! SUPPORT. What each operation and each sequencer step can do when it answers a next state. -/

namespace Sys2Proof.Machine

variable {s t : State}

theorem execClr_eq_next (h : execClr s = .next t) :
    (s.phase ≠ .idle ∧ t = s.reject .busy) ∨ (s.phase = .idle ∧ t = s.clearCall) := by
  rcases whenIdle_eq_next h with h | ⟨hi, h⟩
  · exact .inl h
  · cases h
    exact .inr ⟨hi, rfl⟩

theorem execFold_eq_next (h : execFold s = .next t) :
    (s.phase ≠ .idle ∧ t = s.reject .busy) ∨ (s.phase = .idle ∧ t = s.xorAcc s.lanes) := by
  rcases whenIdle_eq_next h with h | ⟨hi, h⟩
  · exact .inl h
  · cases h
    exact .inr ⟨hi, rfl⟩

theorem execSeed_eq_next (h : execSeed s = .next t) :
    (s.phase ≠ .idle ∧ t = s.reject .busy) ∨ (s.phase = .idle ∧ t = s.takeSeeds) := by
  rcases whenIdle_eq_next h with h | ⟨hi, h⟩
  · exact .inl h
  · cases h
    exact .inr ⟨hi, rfl⟩

theorem execMix_eq_next {k : BitVec 3} (h : execMix k s = .next t) :
    (s.phase ≠ .idle ∧ t = s.reject .busy) ∨ (s.phase = .idle ∧ t = s.mixSeed k.toNat) := by
  rcases whenIdle_eq_next h with h | ⟨hi, h⟩
  · exact .inl h
  · cases h
    exact .inr ⟨hi, rfl⟩

theorem execEmit_eq_next (h : execEmit s = .next t) :
    (s.phase ≠ .idle ∧ t = s.reject .busy) ∨ (s.phase = .idle ∧ t = s.emitDigest) := by
  rcases whenIdle_eq_next h with h | ⟨hi, h⟩
  · exact .inl h
  · cases h
    exact .inr ⟨hi, rfl⟩

theorem execRun_eq_next (h : execRun s = .next t) :
    (s.phase ≠ .idle ∧ t = s.reject .busy) ∨
    (s.phase = .idle ∧ s.cfg.lenMax.val < s.len.toNat ∧ t = s.reject .lenRange) ∨
    (s.phase = .idle ∧ s.len.toNat ≤ s.cfg.lenMax.val ∧ t = s.startRun) := by
  rcases whenIdle_eq_next h with h | ⟨hi, h⟩
  · exact .inl h
  · rcases whenLenFits_eq_next h with h | ⟨hl, h⟩
    · exact .inr (.inl ⟨hi, h⟩)
    · cases h
      exact .inr (.inr ⟨hi, hl, rfl⟩)

theorem execLdchunk_eq_next (h : execLdchunk s = .next t) :
    (s.phase ≠ .idle ∧ t = s.reject .busy) ∨
    (s.phase = .idle ∧ s.cfg.lenMax.val < s.len.toNat ∧ t = s.reject .lenRange) ∨
    (s.phase = .idle ∧ s.len.toNat ≤ s.cfg.lenMax.val ∧
      ∃ ws, chunkLanes s.commandByte s.len.toNat s.off.toNat = some ws ∧ t = s.loadLanes ws) := by
  rcases whenIdle_eq_next h with h | ⟨hi, h⟩
  · exact .inl h
  · rcases whenLenFits_eq_next h with h | ⟨hl, h⟩
    · exact .inr (.inl ⟨hi, h⟩)
    · exact .inr (.inr ⟨hi, hl, withChunk_eq_next h⟩)

theorem execAbsorb_eq_next (h : execAbsorb s = .next t) :
    (s.phase ≠ .idle ∧ t = s.reject .busy) ∨
    (s.phase = .idle ∧ s.cfg.lenMax.val < s.len.toNat ∧ t = s.reject .lenRange) ∨
    (s.phase = .idle ∧ s.len.toNat ≤ s.cfg.lenMax.val ∧
      ∃ ws, chunkLanes s.commandByte s.len.toNat s.off.toNat = some ws ∧ t = s.absorbLanes ws) := by
  rcases whenIdle_eq_next h with h | ⟨hi, h⟩
  · exact .inl h
  · rcases whenLenFits_eq_next h with h | ⟨hl, h⟩
    · exact .inr (.inl ⟨hi, h⟩)
    · exact .inr (.inr ⟨hi, hl, withChunk_eq_next h⟩)

/-- Everything the sequencer's turn can do when it answers a next state. -/
theorem sequencerTurn_eq_next (h : sequencerTurn s = .next t) :
    (s.phase = .idle ∧ t = s) ∨
    (s.phase = .fold ∧ s.off.toNat < s.len.toNat ∧
      ∃ ws, chunkLanes s.runByte s.len.toNat s.off.toNat = some ws ∧ t = s.absorbLanes ws) ∨
    (s.phase = .fold ∧ s.len.toNat ≤ s.off.toNat ∧ t = s.enter .seed) ∨
    (s.phase = .seed ∧ t = (s.takeSeeds.setK 0).enter .mix) ∨
    (s.phase = .mix ∧ s.k.toNat < 8 ∧ t = (s.mixSeed s.k.toNat).setK (s.k + 1)) ∨
    (s.phase = .mix ∧ s.k = 8 ∧ t = s.enter .emit) ∨
    (s.phase = .emit ∧ t = s.settleRaces.emitDigest.enter .idle) := by
  unfold sequencerTurn at h
  split at h
  · next hp => cases h; exact .inl ⟨hp, rfl⟩
  · next hp =>
    unfold sequencerFold at h
    split at h
    · next hl => exact .inr (.inl ⟨hp, hl, withChunk_eq_next h⟩)
    · next hl => cases h; exact .inr (.inr (.inl ⟨hp, Nat.not_lt.mp hl, rfl⟩))
  · next hp => cases h; exact .inr (.inr (.inr (.inl ⟨hp, rfl⟩)))
  · next hp =>
    unfold sequencerMix at h
    split at h
    · next hk => cases h; exact .inr (.inr (.inr (.inr (.inl ⟨hp, hk, rfl⟩))))
    · split at h
      · next hk => cases h; exact .inr (.inr (.inr (.inr (.inr (.inl ⟨hp, hk, rfl⟩)))))
      · cases h
  · next hp => cases h; exact .inr (.inr (.inr (.inr (.inr (.inr ⟨hp, rfl⟩)))))

/-- What a word written to `CMD` can do when it answers a next state. -/
theorem command_eq_next {w : Word} (h : command w s = .next t) :
    (s.phase ≠ .idle ∧ t = s.reject .busy) ∨
    (s.phase = .idle ∧ decode w = .illop ∧ t = s.reject .illop) ∨
    (s.phase = .idle ∧ decode w = .rsvd ∧ t = s.reject .rsvd) ∨
    (s.phase = .idle ∧ ∃ i, decode w = .instr i ∧ exec i s = .next t) := by
  unfold command at h
  split at h
  · next hb => cases h; exact .inl ⟨by simpa using hb, rfl⟩
  · next hb =>
    have hi : s.phase = .idle := by simpa using hb
    split at h
    · next hd => cases h; exact .inr (.inl ⟨hi, hd, rfl⟩)
    · next hd => cases h; exact .inr (.inr (.inl ⟨hi, hd, rfl⟩))
    · next i hd => exact .inr (.inr (.inr ⟨hi, i, hd, h⟩))

/-- What a host write can do when it answers a next state. -/
theorem hostWrite_eq_next {off size : Nat} {v : Word} (h : hostWrite off size v s = .next t) :
    t = s.reject .access ∨
    (accessedReg off size = some .cmd ∧ command v s = .next t) ∨
    (accessedReg off size = some .len ∧ t = writeWhenIdle s (s.setLen v)) ∨
    (accessedReg off size = some .off ∧ t = writeWhenIdle s (s.setOff v)) := by
  unfold hostWrite at h
  split at h
  · next hr => exact .inr (.inl ⟨hr, h⟩)
  · next hr => cases h; exact .inr (.inr (.inl ⟨hr, rfl⟩))
  · next hr => cases h; exact .inr (.inr (.inr ⟨hr, rfl⟩))
  all_goals
    cases h
    exact .inl rfl

/-- What a host read can do. -/
theorem hostRead_cases (off size : Nat) (s : State) :
    (∃ r, accessedReg off size = some r ∧ hostRead off size s = s.answer (s.readReg r)) ∨
    (accessedReg off size = none ∧ hostRead off size s = (s.reject .access).answer 0) := by
  unfold hostRead
  split
  · next r hr => exact .inl ⟨r, hr, rfl⟩
  · next hr => exact .inr ⟨hr, rfl⟩

/-- What a host store can do when it answers a next state. -/
theorem hostStore_eq_next {a : Nat} {bytes : List Byte} (h : hostStore a bytes s = .next t) :
    (bytes.length = 0 ∨ a + bytes.length ≤ s.cfg.lenMax.val) ∧ t = s.storeBytes a bytes := by
  unfold hostStore at h
  split at h
  · next hr => cases h; exact ⟨hr, rfl⟩
  · cases h

/-- What a step can do: the sequencer's turn when the host has no move left, or the first turn of the schedule. -/
theorem step_cases (s : State) :
    (s.schedule = [] ∧ step s = sequencerTurn s) ∨
    (∃ x xs, s.schedule = x :: xs ∧ step s = takeTurn x (s.withSchedule xs)) := by
  unfold step nextTurn
  split
  · next hs => exact .inl ⟨hs, rfl⟩
  · next x xs hs => exact .inr ⟨x, xs, hs, rfl⟩

/-! ### The register block -/

/-- An access at a register's platform address reaches its offset, whatever `REG_BASE` is. -/
theorem addressedOffset_regAddress (c : Config) (off : Nat) : addressedOffset c (regAddress c off) = some off := by
  simp [addressedOffset, regAddress]

/-- An access reaches a register exactly at eight bytes and a listed offset. -/
theorem accessedReg_of_size_ne {off size : Nat} (h : size ≠ 8) : accessedReg off size = none := by
  simp [accessedReg, h]

/-- The two registers the host can write besides `CMD`. -/
theorem writeWhenIdle_cases (s u : State) :
    (s.phase ≠ .idle ∧ writeWhenIdle s u = s.reject .busy) ∨ (s.phase = .idle ∧ writeWhenIdle s u = u) := by
  unfold writeWhenIdle
  split
  · next hb => exact .inl ⟨by simpa using hb, rfl⟩
  · next hb => exact .inr ⟨by simpa using hb, rfl⟩

end Sys2Proof.Machine
end

