-- ==== Sys2Proof/Laws/PerInstr.lean ====
section
/-! SUPPORT. The per-instruction family: an operation's command word matches exactly one row of the opcode table, the
row of its own mnemonic (R94, R95). -/

namespace Sys2Proof.Laws.EncodedInTable

/-- The rows of the opcode table that the operation's command word matches are the one row of its mnemonic. -/
def Statement (i : Instr) : Prop :=
  (opcodeTable.filter (·.matches (encode i))).map OpcodeRow.mnemonic = [i.mnemonic]

theorem clr : Statement .clr := by unfold Statement; decide

theorem ldchunk : Statement .ldchunk := by unfold Statement; decide

theorem fold : Statement .fold := by unfold Statement; decide

theorem absorb : Statement .absorb := by unfold Statement; decide

theorem seed : Statement .seed := by unfold Statement; decide

theorem mix (k : BitVec 3) : Statement (.mix k) := by
  unfold Statement
  revert k
  decide

theorem emit : Statement .emit := by unfold Statement; decide

theorem run : Statement .run := by unfold Statement; decide

end Sys2Proof.Laws.EncodedInTable
end

