-- ==== Sys2Proof/Tests/Slice0.lean ====
section
/-! SUPPORT. The model's own tests and the witnesses of the statements' hypotheses. Every expected value is the spec's
(95_test_vectors.md, named by its V number, or a rule's example). -/

namespace Sys2Proof.Machine.Tests

/-- The state an outcome goes on to. -/
def next? : Result → Option State
  | .next t => some t
  | .fault _ => none
  | .refused _ => none

/-- The fault an outcome stops with. -/
def fault? : Result → Option Fault
  | .next _ => none
  | .fault f => some f
  | .refused _ => none

/-- The input bytes `01 02 .. 21` (95_test_vectors.md `seq33`). -/
def seq33 : Memory := (List.range 33).map (fun i => (i, BitVec.ofNat 8 (i + 1)))

/-- The lanes of the first chunk of `seq33` (V10). -/
def firstLanes : Quad Word := ⟨0x0807060504030201, 0x100F0E0D0C0B0A09, 0x1817161514131211, 0x201F1E1D1C1B1A19⟩

/-- IDLE, `IN = seq33`, `LEN = 33`. -/
def loaded : State := { State.reset with input := seq33, len := 33 }

/-- IDLE, `LEN = LEN_MAX + 1`, where `LEN_MAX = 1024` (V85). -/
def tooLong : State := { State.reset with len := 1025 }

/-- IDLE, `LEN = LEN_MAX` (V88), `OFF` at the end of the input. -/
def longest : State := { State.reset with len := 1024, off := 1024 }

/-- A RUN on `seq33`, just accepted. -/
def running : State := { loaded with phase := .fold }

/-- IDLE, input `abc`. -/
def abc : State := { State.reset with input := [(0, 0x61), (1, 0x62), (2, 0x63)], len := 3 }

/-- A RUN on the input of `s`, before its emit step. -/
def beforeEmit (s : State) : State :=
  { s with phase := .emit, off := 32, k := 8, acc := mixRounds s.cfg.gen (foldState s.inputBytes) 8 }

theorem beforeEmit_acc (s : State) :
    (beforeEmit s).acc = mixRounds (beforeEmit s).cfg.gen (foldState (beforeEmit s).inputBytes) 8 := rfl

/-- A RUN on `abc`, before its emit step. -/
def emitting : State := beforeEmit abc

/-! ### Well-formedness, decoding, encoding -/

theorem test_zeroWordIsIllFormed : wellFormedWord 0x0000000000000000 = false := by decide
theorem test_foldWithBit8IsIllFormed : wellFormedWord 0x0000000000000103 = false := by decide
theorem test_mixEightIsIllFormed : wellFormedWord 0x0000000000000806 = false := by decide
theorem test_runWithBit63IsIllFormed : wellFormedWord 0x8000000000000008 = false := by decide
theorem test_mixSevenIsWellFormed : wellFormedWord 0x0000000000000706 = true := by decide

/-- R91: bits `[63:8]` zero, `opc` in bits `[7:0]`. -/
theorem test_decodeClr :
    decode 0b0000000000000000000000000000000000000000000000000000000000000001 = .instr .clr := by decide
theorem test_decodeLdchunk :
    decode 0b0000000000000000000000000000000000000000000000000000000000000010 = .instr .ldchunk := by decide
theorem test_decodeFold :
    decode 0b0000000000000000000000000000000000000000000000000000000000000011 = .instr .fold := by decide
theorem test_decodeAbsorb :
    decode 0b0000000000000000000000000000000000000000000000000000000000000100 = .instr .absorb := by decide
theorem test_decodeSeed :
    decode 0b0000000000000000000000000000000000000000000000000000000000000101 = .instr .seed := by decide
/-- R92: `k = 6` in bits `[10:8]`. -/
theorem test_decodeMix :
    decode 0b0000000000000000000000000000000000000000000000000000011000000110 = .instr (.mix 6) := by decide
theorem test_decodeEmit :
    decode 0b0000000000000000000000000000000000000000000000000000000000000111 = .instr .emit := by decide
theorem test_decodeRun :
    decode 0b0000000000000000000000000000000000000000000000000000000000001000 = .instr .run := by decide
/-- 95_test_vectors.md section 6.1. -/
theorem test_decodeEveryMix :
    [0x006, 0x106, 0x206, 0x306, 0x406, 0x506, 0x606, 0x706].map (decodeTableWord 64) =
      [some (.mix 0), some (.mix 1), some (.mix 2), some (.mix 3), some (.mix 4), some (.mix 5), some (.mix 6),
       some (.mix 7)] := by decide
/-- V70 to V77. -/
theorem test_rejectedWords :
    [0x0, 0x9, 0xFF, 0xFFFFFFFFFFFFFF00].map decode = [.illop, .illop, .illop, .illop] ∧
    [0x103, 0x806, 0x8000000000000008, 0x101].map decode = [.rsvd, .rsvd, .rsvd, .rsvd] := by decide
theorem test_encodeWords :
    [Instr.clr, .ldchunk, .fold, .absorb, .seed, .mix 3, .emit, .run].map encode =
      [0x1, 0x2, 0x3, 0x4, 0x5, 0x306, 0x7, 0x8] := by decide

/-! ### The operations -/

/-- R110's example. -/
theorem test_clr :
    (next? (exec .clr { State.reset with
        acc := ⟨0x11, 0x22, 0x33, 0x44⟩, off := 64, len := 70, dvalid := true, err := .illop })).map
      (fun t => (t.acc, t.off, t.len, t.readReg .status)) = some (⟨0, 0, 0, 0⟩, 0, 70, 0) := by decide
/-- V12: `OFF` is no multiple of 8. -/
theorem test_ldchunkUnaligned :
    (next? (exec .ldchunk { loaded with off := 3 })).map State.lanes =
      some ⟨0x0B0A090807060504, 0x131211100F0E0D0C, 0x1B1A191817161514, 0x000021201F1E1D1C⟩ := by decide
/-- V17: indices do not wrap. -/
theorem test_ldchunkTop :
    (next? (exec .ldchunk { loaded with off := 0xFFFFFFFFFFFFFFF8 })).map State.lanes = some ⟨0, 0, 0, 0⟩ := by decide
/-- R120's example. -/
theorem test_fold :
    (next? (exec .fold { State.reset with acc := firstLanes, lanes := ⟨0x21, 0, 0, 0⟩ })).map State.acc =
      some ⟨0x0807060504030220, 0x100F0E0D0C0B0A09, 0x1817161514131211, 0x201F1E1D1C1B1A19⟩ := by decide
/-- V21a: the second chunk is one input byte and zeros. -/
theorem test_absorbPartial :
    (next? (exec .absorb { loaded with acc := firstLanes, lanes := firstLanes, off := 32 })).map
      (fun t => (t.lanes, t.acc.x1, t.off)) = some (⟨0x21, 0, 0, 0⟩, 0x0807060504030220, 64) := by decide
/-- V21c: `OFF` wraps. -/
theorem test_absorbWraps :
    (next? (exec .absorb { loaded with off := 0xFFFFFFFFFFFFFFF8 })).map (fun t => (t.acc, t.off)) =
      some (⟨0, 0, 0, 0⟩, 24) := by decide
/-- V35: extreme values of both signs, high half first. -/
theorem test_seed :
    (next? (exec .seed { State.reset with
        acc := ⟨0xFFFFFFFF80000000, 0x7FFFFFFF00000001, 0x80000001FFFFFFFE, 0⟩ })).map
      (fun t => (List.range 8).map (fun n => (seedGet t.seeds n).toInt)) =
      some [-1, -2147483648, 2147483647, 1, -2147483647, -2, 0, 0] := by decide
/-- R141's example, under the default generator. -/
theorem test_mix :
    (next? (exec (.mix 1) { State.reset with
        seeds := ⟨0, 6513249, 0, 0, 0, 0, 0, 0⟩
        acc := ⟨0xD8E4755D6F256E7B, 0xC8DB19F5D56567AD, 0x0085F8373B347C2B, 0x0DB3935300645EEC⟩ })).map State.acc =
      some ⟨0x16C075624E355A58, 0x58DD5D1954EED177, 0xF3B4F529C578725B, 0x7F43CEB0F67820E3⟩ := by decide +kernel
/-- V49b: MIX after CLR uses seed 0. -/
theorem test_mixWithoutSeed :
    (next? (exec (.mix 7) State.reset)).map (fun t => (t.acc, t.k)) =
      some (⟨0xD8E4755D6F460C1A, 0xC8DB19F5D56567AD, 0x0085F8373B347C2B, 0x0DB3935300645EEC⟩, 0) := by decide +kernel
/-- R161's example: bytes `D[0]`, `D[7]`, `D[8]`, `D[31]`, and `STATUS`. -/
theorem test_emit :
    (next? (exec .emit { State.reset with
        acc := ⟨0x16C075624E355A58, 0x58DD5D1954EED177, 0xF3B4F529C578725B, 0x7F43CEB0F67820E3⟩ })).map
      (fun t => ([0, 7, 8, 31].map (byteOf t.dig), t.readReg .status)) =
      some ([0x58, 0x16, 0x77, 0x7F], 0x2) := by decide
/-- R172's example: `STATUS` after the acceptance. -/
theorem test_runAccepted : (next? (exec .run abc)).map (·.readReg .status) = some 0x5 := by decide
/-- V85, then V86 (SEED ignores `LEN`). -/
theorem test_lengthRange :
    (next? (exec .run tooLong)).map (fun t => (t.phase, t.err)) = some (.idle, .lenRange) ∧
    (next? (exec .seed tooLong)).map State.err = some .none := by decide
/-- R61: a byte nothing has written stops the load. -/
theorem test_unwrittenInput : fault? (exec .ldchunk { State.reset with len := 1 }) = some .unwrittenInput := by decide

/-! ### The sequencer -/

/-- G2, sequencer steps 1 and 2. -/
theorem test_foldSteps :
    (next? (sequencerTurn { abc with phase := .fold })).map (fun t => (t.acc.x1, t.off, t.phase)) =
      some (0x636261, 32, .fold) ∧
    (next? (sequencerTurn { abc with phase := .fold, off := 32 })).map (·.readReg .status) = some 0x9 := by decide
/-- G2, sequencer step 3. -/
theorem test_seedStep :
    (next? (sequencerTurn { abc with phase := .seed, acc := ⟨0x636261, 0, 0, 0⟩ })).map
      (fun t => (t.seeds.s1.toInt, t.readReg .status)) = some (6513249, 0xD) := by decide
/-- G2, sequencer steps 4 and 12. -/
theorem test_mixSteps :
    (next? (sequencerTurn { abc with phase := .mix, acc := ⟨0x636261, 0, 0, 0⟩, seeds := ⟨0, 6513249, 0, 0, 0, 0, 0, 0⟩ })).map
      (fun t => (t.acc.x1, t.readReg .status)) = some (0xD8E4755D6F256E7B, 0x10D) ∧
    (next? (sequencerTurn { abc with phase := .mix, k := 8 })).map (·.readReg .status) = some 0x811 := by
  decide +kernel
/-- G2, sequencer step 13. -/
theorem test_emitStep :
    (next? (sequencerTurn { abc with phase := .emit, k := 8, acc := ⟨0x16C075624E355A58, 0, 0, 0⟩ })).map
      (fun t => (t.readReg (.d 0), t.readReg .status)) = some (0x16C075624E355A58, 0x802) := by decide
/-- R215, U11: a store to a chunk already folded leaves no defined digest; the RUN still ends. -/
theorem test_racedDigestIsFree :
    (next? (sequencerTurn { abc with phase := .emit, k := 8, races := [⟨0, some 0x61, 0⟩], draws := 1 })).map
      (fun t => (t.acc, t.dvalid, t.phase, t.draws)) = some (Config.racedDigest 1, true, .idle, 2) := rfl
/-- V31: the loader does not read the byte at `LEN`, and a byte beyond may be unwritten. -/
theorem test_chunkEndsAtLen :
    (next? (sequencerTurn { running with len := 31 })).map (fun t => t.acc.x4) = some 0x001F1E1D1C1B1A19 := by decide

/-! ### The generator and the function -/

/-- R150's table after seeding with 0, and V40. -/
theorem test_generatorSeedZero :
    (List.range 5).map (fun i => (sub55Table 0).getD (i + 1) 0) =
      [1440537475, 765327687, 2146736586, 1117085494, 1507827100] ∧ (sub55Table 0).getD 55 0 = 25386146 ∧
    mixWords .sub55 0 = ⟨0xD8E4755D6F460C1A, 0xC8DB19F5D56567AD, 0x0085F8373B347C2B, 0x0DB3935300645EEC⟩ := by
  decide +kernel
/-- R150's last row and V43b: the most negative seed and another negative one. -/
theorem test_generatorSigns :
    (mixWords .sub55 0x80000000).x1 = 0xD8E4735D6F4C0C1A ∧
    mixWords .sub55 0xAB000000 =
      ⟨0xE99CA0C416D110A9, 0xE7224A547E0184FB, 0x2E12C485426AF097, 0x8F757F6451B6EBA1⟩ := by decide +kernel
/-- V33's fold. -/
theorem test_foldState :
    foldState (seq33.map Prod.snd) =
      ⟨0x0807060504030220, 0x100F0E0D0C0B0A09, 0x1817161514131211, 0x201F1E1D1C1B1A19⟩ := by decide +kernel

/-! ### The register block and the steps -/

/-- V92, and V94's three bad reads. -/
theorem test_reads :
    (hostRead 0x00 8 abc).err = .none ∧ (hostRead 0x00 8 abc).reply = some 0 ∧
    [(0x08, 4), (0x0C, 8), (0xA0, 8)].map (fun a => ((hostRead a.1 a.2 abc).err, (hostRead a.1 a.2 abc).reply)) =
      [(.access, some 0), (.access, some 0), (.access, some 0)] := by decide
/-- R48: `SV1` has `S[0]` in its upper half. -/
theorem test_readSeeds :
    (hostRead 0x60 8 { abc with seeds := ⟨1, 2, 3, 4, 5, 6, 7, 8⟩ }).reply = some 0x0000000100000002 := by decide
/-- V80 to V83: BUSY before ILLOP, ACCESS before BUSY, `LEN` untouched. -/
theorem test_writesWhileBusy :
    ([(0x00, 0x1), (0x00, 0xFFFFFFFFFFFFFF00), (0x10, 5), (0x18, 5), (0x20, 7)].map
        (fun a => (next? (hostWrite a.1 8 a.2 running)).map (fun t => (t.err, t.len, t.phase)))) =
      [some (.busy, 33, .fold), some (.busy, 33, .fold), some (.busy, 33, .fold), some (.busy, 33, .fold),
       some (.access, 33, .fold)] := by decide
/-- V87, V89, V93: RSVD before LENRANGE, the first error is kept, `STATUS` is read only. -/
theorem test_writesWhileIdle :
    (next? (hostWrite 0x00 8 0x108 tooLong)).map State.err = some .rsvd ∧
    (next? (hostWrite 0x00 8 0x103 { abc with err := .illop })).map State.err = some .illop ∧
    (next? (hostWrite 0x08 8 1 abc)).map State.err = some .access := by decide
/-- R210: reset during a RUN keeps the input. -/
theorem test_reset :
    (next? (step { running with schedule := [.reset], dvalid := true })).map
      (fun t => (t.phase, t.len, t.dvalid, t.input == seq33)) = some (.idle, 0, false, true) := by decide
/-- R75: the host's next move is taken before the sequencer's. -/
theorem test_stepTakesTheNextTurn :
    (next? (step { running with schedule := [.read 0x08 8, .sequencer] })).map
      (fun t => (t.reply, t.schedule, t.off)) = some (some 0x5, [.sequencer], 0) := by decide
/-- `withFetchWord` makes the operation run as the first after reset. -/
theorem test_firstAfterReset :
    (next? (step (State.reset.withFetchWord 64 0x7))).map (fun t => (t.dvalid, t.schedule)) = some (true, []) := by decide

/-! ### Witnesses: states and operands that meet the statements' hypotheses -/

theorem seq33_written : ∀ a, a < 33 → (seq33.read a).isSome = true := by decide

theorem loaded_inputWritten : loaded.InputWritten := seq33_written

theorem loaded_chunkWritten : loaded.ChunkWritten := fun a _ _ h => seq33_written a h

theorem loaded_lenFits : loaded.LenFits := by unfold State.LenFits; decide

theorem longest_lenFits : longest.LenFits := by unfold State.LenFits; decide

theorem longest_chunkWritten : longest.ChunkWritten := fun _ h _ h' => absurd h (Nat.not_le_of_lt h')

theorem tooLong_exceeds : tooLong.cfg.lenMax.val < tooLong.len.toNat := by decide

theorem running_inv : running.Inv where
  inputWf := by decide
  inputInRange := by decide
  kAtMostEight := by decide
  busyLenFits := fun _ => loaded_lenFits
  foldOff := by decide
  passedOff := by decide
  emitK := by decide
  busyNotValid := by decide
  notValidZero := by decide
  racesBelowLen := by decide
  racesDrawn := by decide

theorem emitting_inv : emitting.Inv where
  inputWf := by decide
  inputInRange := by decide
  kAtMostEight := by decide
  busyLenFits := fun _ => by unfold State.LenFits; decide
  foldOff := fun h => by cases h
  passedOff := fun _ => by decide
  emitK := fun _ => rfl
  busyNotValid := fun _ => rfl
  notValidZero := fun _ => rfl
  racesBelowLen := fun _ _ h => by cases h
  racesDrawn := fun _ h => by cases h

theorem running_runProgress : running.RunProgress where
  lenFits := fun _ => loaded_lenFits
  noRace := fun _ => rfl
  folding := fun _ => ⟨0, rfl, by decide, rfl⟩
  folded := fun h => by cases h
  mixing := fun h => by cases h
  mixed := fun h => by cases h

theorem emitting_runProgress : emitting.RunProgress where
  lenFits := fun _ => by unfold State.LenFits; decide
  noRace := fun _ => rfl
  folding := fun h => by cases h
  folded := fun h => by cases h
  mixing := fun h => by cases h
  mixed := fun _ => beforeEmit_acc abc

/-- A store just above the input of the RUN in progress. -/
theorem running_nextMoveLeavesInput :
    { running with schedule := [.store 33 [0xFF]] : State }.NextMoveLeavesInput := by
  intro a bytes ts h _
  cases h
  decide

/-- The hypotheses of `FormatZRule`'s two clauses, for each format Z opcode, and of the idle clauses. -/
theorem witness_formatZ :
    State.reset.phase = .idle ∧ running.phase ≠ .idle ∧
    ∀ opc ∈ [(0x01 : BitVec 8), 0x02, 0x03, 0x04, 0x05, 0x07, 0x08],
      (0#55 ++ 1#1 ++ opc).extractLsb' 0 8 = opc ∧ (0#55 ++ 1#1 ++ opc).extractLsb' 8 56 ≠ 0 ∧
      (1#1 ++ 0#55 ++ opc).extractLsb' 0 8 = opc ∧ (1#1 ++ 0#55 ++ opc).extractLsb' 8 56 ≠ 0 := by decide

theorem witness_clrClearsTheCall : State.reset.phase = .idle := rfl

theorem witness_ldchunkLoadsFourLanes :
    (tooLong.phase = .idle ∧ tooLong.cfg.lenMax.val < tooLong.len.toNat) ∧
    (longest.phase = .idle ∧ longest.LenFits ∧ longest.ChunkWritten) ∧
    loaded.phase = .idle ∧ loaded.LenFits ∧ loaded.ChunkWritten :=
  ⟨⟨rfl, tooLong_exceeds⟩, ⟨rfl, longest_lenFits, longest_chunkWritten⟩, rfl, loaded_lenFits, loaded_chunkWritten⟩

theorem witness_foldXorsLanesIntoAccumulators : { State.reset with lanes := firstLanes }.phase = .idle := rfl

theorem witness_absorbIsOneFoldIteration :
    (tooLong.phase = .idle ∧ tooLong.cfg.lenMax.val < tooLong.len.toNat) ∧
    loaded.phase = .idle ∧ loaded.LenFits ∧ loaded.ChunkWritten :=
  ⟨⟨rfl, tooLong_exceeds⟩, rfl, loaded_lenFits, loaded_chunkWritten⟩

theorem witness_seedSnapshotsTheHalves : { State.reset with acc := firstLanes }.phase = .idle := rfl

theorem witness_mixXorsGeneratorBlocks :
    State.reset.phase = .idle ∧ running.phase ≠ .idle ∧
    (0x806 : Word).extractLsb' 0 8 = 0x06#8 ∧ (0x806 : Word).extractLsb' 11 53 ≠ 0 := by decide

theorem witness_emitSerializesAccumulators : { State.reset with acc := firstLanes }.phase = .idle := rfl

theorem witness_runIsAccepted :
    (tooLong.phase = .idle ∧ tooLong.cfg.lenMax.val < tooLong.len.toNat) ∧
    (longest.phase = .idle ∧ longest.LenFits) ∧ loaded.phase = .idle ∧ loaded.LenFits :=
  ⟨⟨rfl, tooLong_exceeds⟩, ⟨rfl, longest_lenFits⟩, rfl, loaded_lenFits⟩

/-- The last index of the input, and the first byte of the chunk. -/
theorem witness_unwrittenInputStopsTheLoad :
    (let s : State := { abc with len := 4 }
     s.phase = .idle ∧ s.LenFits ∧ s.off.toNat ≤ 3 ∧ 3 < s.off.toNat + 32 ∧ 3 < s.len.toNat ∧ s.input.read 3 = none) ∧
    (let s : State := { State.reset with len := 1 }
     s.phase = .idle ∧ s.LenFits ∧ s.off.toNat ≤ 0 ∧ 0 < s.off.toNat + 32 ∧ 0 < s.len.toNat ∧
       s.input.read 0 = none) := by
  unfold State.LenFits
  decide

theorem witness_operationsLeaveTheRestAlone :
    ∀ i : Fin 8, ∃ t : State,
      exec ([Instr.clr, .ldchunk, .fold, .absorb, .seed, .mix 7, .emit, .run].get i) loaded = .next t := by
  intro i
  match i with
  | 0 => exact ⟨_, rfl⟩
  | 1 => exact ⟨_, rfl⟩
  | 2 => exact ⟨_, rfl⟩
  | 3 => exact ⟨_, rfl⟩
  | 4 => exact ⟨_, rfl⟩
  | 5 => exact ⟨_, rfl⟩
  | 6 => exact ⟨_, rfl⟩
  | 7 => exact ⟨_, rfl⟩

theorem witness_sequencerTakesItsTurns :
    running.schedule = [] ∧ { running with schedule := [.sequencer] }.schedule = Turn.sequencer :: [] ∧
    loaded.phase = .idle := ⟨rfl, rfl, rfl⟩

/-- Loading: the first chunk and the last; ending: `OFF = LEN` and `OFF` beyond. -/
theorem witness_foldPhaseLoadsOrEnds :
    (running.phase = .fold ∧ running.off.toNat < running.len.toNat ∧ running.races = [] ∧ running.ChunkWritten) ∧
    (let s : State := { running with off := 32 }
     s.phase = .fold ∧ s.off.toNat < s.len.toNat ∧ s.races = [] ∧ s.ChunkWritten) ∧
    (let s : State := { running with len := 32, off := 32 }
     s.phase = .fold ∧ s.len.toNat ≤ s.off.toNat) ∧
    (let s : State := { running with off := 64 }
     s.phase = .fold ∧ s.len.toNat ≤ s.off.toNat) :=
  ⟨⟨rfl, by decide, rfl, fun a _ _ h => seq33_written a h⟩, ⟨rfl, by decide, rfl, fun a _ _ h => seq33_written a h⟩,
   ⟨rfl, by decide⟩, ⟨rfl, by decide⟩⟩

/-- A store that raced with the RUN, of a byte that was written before. -/
theorem witness_foldPhaseReadsRacedBytes :
    let s : State := { running with len := 1, races := [⟨0, some 7, 0⟩], draws := 1 }
    s.phase = .fold ∧ s.off.toNat < s.len.toNat ∧
    ∀ a, s.off.toNat ≤ a → a < s.off.toNat + 32 → a < s.len.toNat → (s.runByte a).isSome = true := by
  refine ⟨rfl, by decide, fun a _ _ h => ?_⟩
  obtain rfl : a = 0 := Nat.lt_one_iff.mp h
  show (if Config.raceTakesNew 0 = true then some (1 : Byte) else some 7).isSome = true
  split <;> rfl

theorem witness_seedPhaseTakesSeeds : { running with phase := .seed }.phase = .seed := rfl

/-- `K` at both ends of its range below 8, and 8. -/
theorem witness_mixPhaseMixesOrEnds :
    ({ running with phase := .mix, k := 0 }.phase = .mix ∧ { running with phase := .mix, k := 0 }.k.toNat < 8) ∧
    ({ running with phase := .mix, k := 7 }.phase = .mix ∧ { running with phase := .mix, k := 7 }.k.toNat < 8) ∧
    { running with phase := .mix, k := 8 }.phase = .mix ∧ { running with phase := .mix, k := 8 }.k = 8 := by decide

/-- Without a racing store, and with one to a chunk already folded. -/
theorem witness_emitPhaseEndsTheRun :
    (emitting.phase = .emit ∧ emitting.Inv ∧ emitting.races = []) ∧
    { emitting with races := [⟨0, some 0x61, 0⟩], draws := 1 }.phase = .emit := ⟨⟨rfl, emitting_inv, rfl⟩, rfl⟩

/-- Each of the cases of decoding, at the ends of its range of opcodes. -/
theorem witness_commandFallsInFiveCases :
    running.phase ≠ .idle ∧ State.reset.phase = .idle ∧
    ((0x00 : Word).extractLsb' 0 8).toNat = 0 ∧ 8 < ((0x09 : Word).extractLsb' 0 8).toNat ∧
    8 < ((0xFF : Word).extractLsb' 0 8).toNat ∧
    (((0x101 : Word).extractLsb' 0 8).toNat = 1 ∧ (0x101 : Word).extractLsb' 8 56 ≠ 0) ∧
    (((0x108 : Word).extractLsb' 0 8).toNat = 8 ∧ (0x108 : Word).extractLsb' 8 56 ≠ 0) ∧
    (((0x806 : Word).extractLsb' 0 8).toNat = 6 ∧ (0x806 : Word).extractLsb' 11 53 ≠ 0) ∧
    (tooLong.phase = .idle ∧ tooLong.cfg.lenMax.val < tooLong.len.toNat) ∧
    (((0x01 : Word).extractLsb' 0 8).toNat = 1 ∧ (0x01 : Word).extractLsb' 8 56 = 0) ∧
    (((0x08 : Word).extractLsb' 0 8).toNat = 8 ∧ (0x08 : Word).extractLsb' 8 56 = 0) ∧
    (((0x706 : Word).extractLsb' 0 8).toNat = 6 ∧ (0x706 : Word).extractLsb' 11 53 = 0) ∧
    longest.phase = .idle ∧ ¬ longest.cfg.lenMax.val < longest.len.toNat ∧ wellFormedWord 0x806 = false := by decide

theorem witness_firstCauseGivesTheCode :
    (¬ (4 = 8 ∧ (0x00 = 0x00 ∨ 0x00 = 0x10 ∨ 0x00 = 0x18)) ∧ ¬ (8 = 8 ∧ (0x08 = 0x00 ∨ 0x08 = 0x10 ∨ 0x08 = 0x18))) ∧
    (¬ (8 = 8 ∧ 0x0C % 8 = 0 ∧ 0x0C < 0xA0) ∧ ¬ (8 = 8 ∧ 0xA0 % 8 = 0 ∧ 0xA0 < 0xA0)) ∧
    running.phase ≠ .idle ∧ State.reset.phase = .idle ∧
    (((0x00 : Word).extractLsb' 0 8).toNat = 0 ∧ 8 < ((0x09 : Word).extractLsb' 0 8).toNat) ∧
    (((0x806 : Word).extractLsb' 0 8).toNat = 6 ∧ (0x806 : Word).extractLsb' 11 53 ≠ 0) ∧
    (((0x108 : Word).extractLsb' 0 8).toNat = 8 ∧ (0x108 : Word).extractLsb' 8 56 ≠ 0) ∧
    tooLong.phase = .idle ∧ tooLong.cfg.lenMax.val < tooLong.len.toNat := by decide

/-- Each of the three ways an error is taken away, and a rejected read. -/
theorem witness_firstErrorIsKept :
    (¬ (4 = 8 ∧ 0x08 % 8 = 0 ∧ 0x08 < 0xA0)) ∧
    ∀ n : Fin 3, ∃ t : State,
      let s : State := { loaded with
        err := .illop, schedule := [[.reset, .write 0x00 8 0x01, .write 0x00 8 0x08].get n] }
      step s = .next t ∧ s.err ≠ .none ∧ t.err ≠ s.err := by
  refine ⟨by decide, fun n => ?_⟩
  match n with
  | 0 => exact ⟨_, rfl, by decide⟩
  | 1 => exact ⟨_, rfl, by decide⟩
  | 2 => exact ⟨_, rfl, by decide⟩

theorem witness_lengthIsCheckedByReadersOnly :
    (tooLong.phase = .idle ∧ tooLong.cfg.lenMax.val < tooLong.len.toNat) ∧ (longest.phase = .idle ∧ longest.LenFits) ∧
    (Instr.mix 7 ≠ .ldchunk ∧ Instr.mix 7 ≠ .absorb ∧ Instr.mix 7 ≠ .run) :=
  ⟨⟨rfl, tooLong_exceeds⟩, ⟨rfl, longest_lenFits⟩, by decide⟩

theorem witness_lengthAndOffsetRegisters : loaded.phase = .idle ∧ running.phase ≠ .idle := by decide

theorem witness_accumulatorAndLaneRegisters :
    0x20 ∈ [0x20, 0x28, 0x30, 0x38, 0x40, 0x48, 0x50, 0x58] ∧
    0x58 ∈ [0x20, 0x28, 0x30, 0x38, 0x40, 0x48, 0x50, 0x58] := by decide

theorem witness_seedRegisters : 0x60 ∈ [0x60, 0x68, 0x70, 0x78] ∧ 0x78 ∈ [0x60, 0x68, 0x70, 0x78] := by decide

theorem witness_digestRegisters :
    (0 < 32 ∧ 31 < 32) ∧ 0x80 ∈ [0x80, 0x88, 0x90, 0x98] ∧ 0x98 ∈ [0x80, 0x88, 0x90, 0x98] := by decide

theorem witness_registersShowFinishedWork :
    (loaded.phase = .idle ∧ (∃ t : State, exec .seed loaded = .next t) ∧ ∃ t : State, exec .emit loaded = .next t) ∧
    emitting.Inv ∧ emitting.phase = .emit ∧ emitting.err = .none ∧ ∃ t : State, sequencerTurn emitting = .next t :=
  ⟨⟨rfl, ⟨_, rfl⟩, ⟨_, rfl⟩⟩, emitting_inv, rfl, rfl, ⟨_, rfl⟩⟩

theorem witness_badAccessesAreRejected :
    (4 ≠ 8 ∧ 0x0C % 8 ≠ 0 ∧ 0xA0 ≤ 0xA0) ∧ (0x08 = 0x08 ∧ 0x20 ≤ 0x20 ∧ 0x20 ≤ 0x98) := by decide

theorem witness_resetLeavesZeros :
    (State.reset = State.reset ∧ State.resetWith Config.default = State.resetWith Config.default) ∧
    ∃ t : State, takeTurn .reset running = .next t := ⟨⟨rfl, rfl⟩, ⟨_, rfl⟩⟩

/-- A memory that differs from `seq33` at and above `LEN` only. -/
theorem witness_loaderReadsBelowLengthOnly :
    (∀ a, a < running.len.toNat → (seq33 ++ [(33, (0xFF : Byte))] : Memory).read a = running.input.read a) ∧
    (seq33 ++ [(33, (0xFF : Byte))] : Memory).read 33 ≠ running.input.read 33 ∧ running.phase = .fold := by decide

theorem witness_onlyStoresChangeTheInput :
    ∃ t : State, step running = .next t ∧ ∀ a bytes ts, running.schedule ≠ .store a bytes :: ts :=
  ⟨_, rfl, fun _ _ _ h => by cases h⟩

/-- The last index of `IN`, and the first that does not exist. -/
theorem witness_hostStoreWritesItsBytes :
    ([0xFF] : List Byte) ≠ [] ∧ 1023 + ([0xFF] : List Byte).length ≤ running.cfg.lenMax.val ∧
    running.cfg.lenMax.val < 1024 + ([0xFF] : List Byte).length ∧ loaded.phase = .idle ∧ running.len.toNat ≤ 33 := by
  decide

/-- The last byte of the input while folding, and a byte already folded in phase EMIT; then the sequencer's step with
the store on record, in phase FOLD and in phase EMIT. -/
theorem witness_racingStoreIsOldOrNew :
    (running.phase ≠ .idle ∧ 32 < running.len.toNat ∧ running.LenFits) ∧
    (emitting.phase ≠ .idle ∧ 0 < emitting.len.toNat ∧ emitting.LenFits) ∧
    (let s : State := { running with off := 64, races := [⟨0, some 1, 0⟩], draws := 1 }
     s.phase ≠ .idle ∧ s.races ≠ [] ∧ (∃ t : State, step s = .next t) ∧ ∀ ts, s.schedule ≠ .reset :: ts) ∧
    (let s : State := { emitting with races := [⟨0, some 0x61, 0⟩], draws := 1 }
     s.phase = .emit ∧ s.races ≠ []) :=
  ⟨⟨by decide, by decide, loaded_lenFits⟩, ⟨by decide, by decide, emitting_inv.busyLenFits (by decide)⟩,
   ⟨by decide, by decide, ⟨_, rfl⟩, fun _ h => by cases h⟩, rfl, by decide⟩

theorem witness_stepRunsTheDecodedOperation :
    ({ loaded with schedule := [.write 0x00 8 0x706] }.schedule = Turn.write 0x00 8 0x706 :: [] ∧
      decode 0x706 = .instr (.mix 7)) ∧
    0x706 < 2 ^ 64 ∧ decodeTableWord 64 0x706 = some (.mix 7) := by decide

/-- Each change of phase: acceptance, the four of the sequencer, reset. -/
theorem witness_phasesFollowOneOrder :
    ∀ n : Fin 6, ∃ t : State,
      let s : State := [{ loaded with schedule := [.write 0x00 8 0x08] }, { running with off := 64 },
        { running with phase := .seed }, { running with phase := .mix, k := 8 }, { running with phase := .emit },
        { running with schedule := [.reset] }].get n
      step s = .next t ∧ t.phase ≠ s.phase := by
  intro n
  match n with
  | 0 => exact ⟨_, rfl, by decide⟩
  | 1 => exact ⟨_, rfl, by decide⟩
  | 2 => exact ⟨_, rfl, by decide⟩
  | 3 => exact ⟨_, rfl, by decide⟩
  | 4 => exact ⟨_, rfl, by decide⟩
  | 5 => exact ⟨_, rfl, by decide⟩

theorem witness_onlyTheHostChangesLength :
    (∃ t : State, step { loaded with schedule := [.write 0x10 8 5] } = .next t ∧ t.len ≠ loaded.len) ∧
    (∃ t : State, step { loaded with schedule := [.reset] } = .next t ∧ t.len ≠ loaded.len) ∧
    ({ loaded with schedule := [.write 0x10 8 5] }.schedule = Turn.write 0x10 8 5 :: [] ∧ loaded.phase = .idle) ∧
    tooLong.phase = .idle ∧ tooLong.cfg.lenMax.val < tooLong.len.toNat :=
  ⟨⟨_, rfl, by decide⟩, ⟨_, rfl, by decide⟩, ⟨rfl, rfl⟩, rfl, tooLong_exceeds⟩

theorem witness_configurationIsFixed : ∃ t : State, step running = .next t := ⟨_, rfl⟩

theorem witness_stepKeepsInvariant : running.Inv ∧ ∃ t : State, step running = .next t := ⟨running_inv, ⟨_, rfl⟩⟩

theorem witness_invariantStatesAreNeverRefused : running.Inv ∧ emitting.Inv := ⟨running_inv, emitting_inv⟩

theorem witness_stepKeepsRunProgress :
    let s : State := { running with schedule := [.store 33 [0xFF]] }
    s.RunProgress ∧ s.NextMoveLeavesInput ∧ ∃ t : State, step s = .next t :=
  ⟨{ running_runProgress with }, running_nextMoveLeavesInput, ⟨_, rfl⟩⟩

theorem witness_runInProgressEmitsDigest :
    emitting.RunProgress ∧ emitting.phase = .emit ∧ ∃ t : State, sequencerTurn emitting = .next t :=
  ⟨emitting_runProgress, rfl, ⟨_, rfl⟩⟩

/-- An input of two chunks, and the empty one. -/
theorem witness_runComputesDigest :
    (let s : State := { loaded with schedule := [.write 0x00 8 0x08] }
     s.schedule = [.write 0x00 8 0x08] ∧ s.phase = .idle ∧ s.LenFits ∧ s.InputWritten) ∧
    (let s : State := { State.reset with schedule := [.write 0x00 8 0x08] }
     s.schedule = [.write 0x00 8 0x08] ∧ s.phase = .idle ∧ s.LenFits ∧ s.InputWritten) :=
  ⟨⟨rfl, rfl, loaded_lenFits, seq33_written⟩, rfl, rfl, Nat.zero_le _, fun _ h => absurd h (Nat.not_lt_zero _)⟩

theorem witness_absorbsFoldTheInput :
    (loaded.phase = .idle ∧ loaded.LenFits ∧ ∃ t : State, runOps [.ldchunk, .fold] loaded = .next t) ∧
    loaded.InputWritten := ⟨⟨rfl, loaded_lenFits, ⟨_, rfl⟩⟩, loaded_inputWritten⟩

theorem witness_singleOperationsGiveDigest : loaded.phase = .idle ∧ loaded.LenFits ∧ loaded.InputWritten :=
  ⟨rfl, loaded_lenFits, loaded_inputWritten⟩

theorem witness_wholeMixPass :
    { State.reset with acc := firstLanes }.phase = .idle ∧ State.reset.acc = quadOf 0 := ⟨rfl, rfl⟩

/-- V48's indices, on different iterations with equal seeds, and two orders of three iterations. -/
theorem witness_mixOrderDoesNotMatter :
    ([0, 1, 7] : List (BitVec 3)).Perm [7, 0, 1] ∧
    (let s : State := { State.reset with seeds := ⟨0, 0, 9, 0, 0, 9, 0, 0⟩ }
     s.phase = .idle ∧ seedGet s.seeds (2 : BitVec 3).toNat = seedGet s.seeds (5 : BitVec 3).toNat) := by decide

theorem witness_defaultGeneratorLosesSign : (5 : Seed) ≠ 0x80000000 ∧ (0x7FFFFFFF : Seed) ≠ 0x80000000 := by decide

theorem witness_defaultGeneratorReadsSeededTable : 0 < 32 ∧ 31 < 32 := by decide

theorem witness_digestLayout : 0 < 32 ∧ 31 < 32 := by decide

/-- Input that folds to zero without being empty (V3, V4 in small). -/
theorem witness_zeroFoldGivesZeroDigest : foldState [0, 0, 0] = quadOf 0 := by decide

theorem witness_chunkOrderIsIrrelevant :
    (∀ c ∈ [List.replicate 32 (1 : Byte), List.replicate 32 2], c.length = 32) ∧
    [List.replicate 32 (1 : Byte), List.replicate 32 2].Perm [List.replicate 32 2, List.replicate 32 1] ∧
    (List.replicate 32 (1 : Byte)).length = 32 := by decide

theorem witness_foldIsLinear : ([1, 2, 3] : List Byte).length = ([4, 5, 6] : List Byte).length := rfl

theorem witness_inputByteReachesOneByte : 32 < (seq33.map Prod.snd).length ∧ 0 < 32 ∧ 31 < 32 := by decide

end Sys2Proof.Machine.Tests
end

section
/-! PROOFS. The state family (10_state.md): the register block and its bad accesses, the fields of `STATUS`, the bytes of
the digest words, the length register and the reset values. -/

namespace Sys2Proof.Machine

variable {s t : State} {off size : Nat}

/-! ### Which register an access reaches -/

/-- An access reaches a register exactly when it has eight bytes and the register map lists the offset (R40, R41). -/
theorem accessedReg_eq_some_iff {r : Reg} : accessedReg off size = some r ↔ size = 8 ∧ (off, r) ∈ regMap := by
  have hlookup : ∀ p ∈ regMap, regMap.lookup p.1 = some p.2 := by decide
  rw [accessedReg, Option.ite_none_right_eq_some]
  refine and_congr_right fun _ => ⟨fun h => ?_, hlookup (off, r)⟩
  obtain ⟨l₁, l₂, hl, -⟩ := List.lookup_eq_some_iff.mp h
  simp [hl]

theorem accessedReg_eq_cmd_iff : accessedReg off size = some .cmd ↔ size = 8 ∧ off = 0x00 := by
  simp [accessedReg_eq_some_iff, regMap]

theorem accessedReg_eq_len_iff : accessedReg off size = some .len ↔ size = 8 ∧ off = 0x10 := by
  simp [accessedReg_eq_some_iff, regMap]

theorem accessedReg_eq_off_iff : accessedReg off size = some .off ↔ size = 8 ∧ off = 0x18 := by
  simp [accessedReg_eq_some_iff, regMap]

/-- Every listed offset is a multiple of 8 below `0xA0`, so no other offset reaches a register (R40). -/
theorem accessedReg_of_bad (h : size ≠ 8 ∨ off % 8 ≠ 0 ∨ 0xA0 ≤ off) : accessedReg off size = none := by
  have hoffsets : ∀ p ∈ regMap, p.1 % 8 = 0 ∧ p.1 < 0xA0 := by decide
  refine Option.eq_none_iff_forall_ne_some.mpr fun r hr => ?_
  obtain ⟨hsize, hmem⟩ := accessedReg_eq_some_iff.mp hr
  have := hoffsets (off, r) hmem
  omega

/-! ### Reads and writes of the register block -/

/-- A well-formed read changes nothing but what the host got back. -/
theorem hostRead_of_mem_regMap {r : Reg} (h : (off, r) ∈ regMap) (s : State) :
    hostRead off 8 s = { s with reply := some (s.readReg r) } := by
  rw [hostRead, accessedReg_eq_some_iff.mpr ⟨rfl, h⟩]
  rfl

theorem hostRead_of_no_reg (h : accessedReg off size = none) (s : State) :
    hostRead off size s = (s.reject .access).answer 0 := by
  rw [hostRead, h]

theorem hostWrite_cmd (v : Word) (s : State) : hostWrite 0x00 8 v s = command v s := rfl

theorem hostWrite_len (v : Word) (s : State) :
    hostWrite 0x10 8 v s = .next (writeWhenIdle s (s.setLen v)) := rfl

theorem hostWrite_off (v : Word) (s : State) :
    hostWrite 0x18 8 v s = .next (writeWhenIdle s (s.setOff v)) := rfl

/-- `CMD`, `LEN` and `OFF` are the writable registers; every other write is a bad access (R50). -/
theorem hostWrite_of_not_writable (h : ¬ (size = 8 ∧ (off = 0x00 ∨ off = 0x10 ∨ off = 0x18))) (v : Word) (s : State) :
    hostWrite off size v s = .next (s.reject .access) := by
  unfold hostWrite
  split
  · next hr => exact absurd (accessedReg_eq_cmd_iff.mp hr) (by omega)
  · next hr => exact absurd (accessedReg_eq_len_iff.mp hr) (by omega)
  · next hr => exact absurd (accessedReg_eq_off_iff.mp hr) (by omega)
  all_goals rfl

/-- From `P1` on every register is read only. -/
theorem hostWrite_of_ge (h : 0x20 ≤ off) (v : Word) (s : State) :
    hostWrite off size v s = .next (s.reject .access) :=
  hostWrite_of_not_writable (by omega) v s

theorem writeWhenIdle_of_idle (h : s.phase = .idle) (u : State) : writeWhenIdle s u = u := by
  simp [writeWhenIdle, h]

theorem writeWhenIdle_of_busy (h : s.phase ≠ .idle) (u : State) : writeWhenIdle s u = s.reject .busy := by
  simp [writeWhenIdle, h]

/-! ### The fields of `STATUS` and the bytes of a digest word -/

/-- R43: every field of the status word, reserved ones included. -/
theorem State.statusWord_fields (s : State) :
    s.statusWord.extractLsb' 0 1 = BitVec.ofBool s.busy ∧ s.statusWord.extractLsb' 1 1 = BitVec.ofBool s.dvalid ∧
    s.statusWord.extractLsb' 2 3 = s.phase.code ∧ s.statusWord.extractLsb' 5 3 = 0#3 ∧
    s.statusWord.extractLsb' 8 4 = s.k ∧ s.statusWord.extractLsb' 12 4 = 0#4 ∧
    s.statusWord.extractLsb' 16 4 = s.err.code ∧ s.statusWord.extractLsb' 20 44 = 0#44 := by
  simp (disch := omega) only [State.statusWord, BitVec.extractLsb'_append_eq_of_le,
    BitVec.extractLsb'_append_eq_of_add_le, BitVec.extractLsb'_eq_self, Nat.reduceSub, and_self]

theorem State.statusWord_resetWith (c : Config) : (State.resetWith c).statusWord = 0 := by
  simp [State.statusWord, State.resetWith, State.busy, Phase.code, ErrCode.code]

theorem ofBool_eq_one_iff (b : Bool) : BitVec.ofBool b = 1 ↔ b = true :=
  BitVec.ofBool_eq_iff_eq (b' := true)

/-- Byte `i` of `LE64` (R10). -/
theorem extractLsb'_le64 (o : Octet) {i : Nat} (hi : i < 8) : (le64 o).extractLsb' (8 * i) 8 = octetGet o i := by
  unfold le64
  interval_cases i <;>
    simp (disch := omega) only [octetGet, BitVec.extractLsb'_append_eq_of_le, BitVec.extractLsb'_append_eq_of_add_le,
      BitVec.extractLsb'_eq_self, Nat.reduceMul, Nat.reduceSub]

/-! ### What changes `LEN` -/

/-- R24: no operation changes `LEN`. -/
theorem exec_keeps_len {i : Instr} (h : exec i s = .next t) : t.len = s.len := by
  cases i with
  | clr => obtain ⟨-, rfl⟩ | ⟨-, rfl⟩ := execClr_eq_next h <;> rfl
  | ldchunk => obtain ⟨-, rfl⟩ | ⟨-, -, rfl⟩ | ⟨-, -, _, -, rfl⟩ := execLdchunk_eq_next h <;> rfl
  | fold => obtain ⟨-, rfl⟩ | ⟨-, rfl⟩ := execFold_eq_next h <;> rfl
  | absorb => obtain ⟨-, rfl⟩ | ⟨-, -, rfl⟩ | ⟨-, -, _, -, rfl⟩ := execAbsorb_eq_next h <;> rfl
  | seed => obtain ⟨-, rfl⟩ | ⟨-, rfl⟩ := execSeed_eq_next h <;> rfl
  | mix k => obtain ⟨-, rfl⟩ | ⟨-, rfl⟩ := execMix_eq_next h <;> rfl
  | emit => obtain ⟨-, rfl⟩ | ⟨-, rfl⟩ := execEmit_eq_next h <;> rfl
  | run => obtain ⟨-, rfl⟩ | ⟨-, -, rfl⟩ | ⟨-, -, rfl⟩ := execRun_eq_next h <;> rfl

theorem command_keeps_len {w : Word} (h : command w s = .next t) : t.len = s.len := by
  obtain ⟨-, rfl⟩ | ⟨-, -, rfl⟩ | ⟨-, -, rfl⟩ | ⟨-, i, -, h⟩ := command_eq_next h
  · rfl
  · rfl
  · rfl
  · exact exec_keeps_len h

theorem sequencerTurn_keeps_len (h : sequencerTurn s = .next t) : t.len = s.len := by
  obtain ⟨-, rfl⟩ | ⟨-, -, _, -, rfl⟩ | ⟨-, -, rfl⟩ | ⟨-, rfl⟩ | ⟨-, -, rfl⟩ | ⟨-, -, rfl⟩ | ⟨-, rfl⟩ :=
    sequencerTurn_eq_next h
  all_goals simp

theorem hostRead_keeps_len (off size : Nat) (s : State) : (hostRead off size s).len = s.len := by
  obtain ⟨_, -, h⟩ | ⟨-, h⟩ := hostRead_cases off size s <;> simp [h]

/-- A host write keeps `LEN`, or is the write of `LEN` while IDLE (R44). -/
theorem hostWrite_len_cases {v : Word} (h : hostWrite off size v s = .next t) :
    t.len = s.len ∨ (size = 8 ∧ off = 0x10 ∧ s.phase = .idle ∧ t.len = v) := by
  obtain rfl | ⟨-, h⟩ | ⟨hr, rfl⟩ | ⟨-, rfl⟩ := hostWrite_eq_next h
  · exact .inl rfl
  · exact .inl (command_keeps_len h)
  · obtain ⟨hsize, hoff⟩ := accessedReg_eq_len_iff.mp hr
    obtain ⟨-, hw⟩ | ⟨hi, hw⟩ := writeWhenIdle_cases s (s.setLen v)
    · exact .inl (by simp [hw])
    · exact .inr ⟨hsize, hoff, hi, by simp [hw]⟩
  · obtain ⟨-, hw⟩ | ⟨-, hw⟩ := writeWhenIdle_cases s (s.setOff v) <;> exact .inl (by simp [hw])

/-- A turn keeps `LEN`, or is the host's write of it while IDLE, or is reset (R24). -/
theorem takeTurn_len_cases {x : Turn} (h : takeTurn x s = .next t) :
    t.len = s.len ∨ (∃ v, x = .write 0x10 8 v ∧ s.phase = .idle ∧ t.len = v) ∨ (x = .reset ∧ t.len = 0) := by
  cases x with
  | read off size =>
    cases h
    exact .inl (hostRead_keeps_len off size s)
  | write off size v =>
    obtain h | ⟨rfl, rfl, hi, hv⟩ := hostWrite_len_cases h
    · exact .inl h
    · exact .inr (.inl ⟨v, rfl, hi, hv⟩)
  | store a bytes =>
    obtain ⟨-, rfl⟩ := hostStore_eq_next h
    exact .inl (State.storeBytes_same bytes s a).len
  | reset =>
    cases h
    exact .inr (.inr ⟨rfl, rfl⟩)
  | sequencer => exact .inl (sequencerTurn_keeps_len h)

theorem step_of_schedule_cons {x : Turn} {xs : List Turn} (h : s.schedule = x :: xs) :
    step s = takeTurn x (s.withSchedule xs) := by
  rw [step, nextTurn, h]

/-- R193: the operations that read the input memory reject a `LEN` above `LEN_MAX`. -/
theorem exec_reader_of_len_too_long {i : Instr} (hi : i = .ldchunk ∨ i = .absorb ∨ i = .run) (hs : s.phase = .idle)
    (hl : s.cfg.lenMax.val < s.len.toNat) : exec i s = .next (s.reject .lenRange) := by
  obtain rfl | rfl | rfl := hi <;> exact (whenIdle_of_idle hs _).trans (whenLenFits_of_lt hl _)

end Sys2Proof.Machine

namespace Sys2Proof.Machine

/-! ### The statements -/

/-- Settles O25: the field lemma of the status word, and the rejected write of a read-only register. -/
theorem statusRegisterShowsFields : Obligations.StatusRegisterShowsFields := by
  refine ⟨fun s => ?_, fun s x => hostWrite_of_not_writable (by omega) x s, State.statusWord_resetWith⟩
  obtain ⟨hbusy, hdvalid, hphase, hzero5, hk, hzero12, herr, hzero20⟩ := s.statusWord_fields
  refine ⟨s.statusWord, hostRead_of_mem_regMap (r := .status) (by decide) s, ?_, ?_, ?_, hzero5, hk, hzero12, ?_, hzero20⟩
  · rw [hbusy, ofBool_eq_one_iff, State.busy_eq_true]
  · rw [hdvalid, ofBool_eq_one_iff]
  · rw [hphase]
    cases s.phase <;> rfl
  · rw [herr]
    cases s.err <;> rfl

/-- Settles O29: digest byte `n` is byte `n mod 8` of the little-endian word of octet `n div 8`. -/
theorem digestRegisters : Obligations.DigestRegisters := by
  refine ⟨fun s => ⟨?_, ?_, ?_, ?_⟩, fun s n _ => ?_, fun s off v h => hostWrite_of_ge ?_ v s⟩
  · exact hostRead_of_mem_regMap (r := .d 0) (by decide) s
  · exact hostRead_of_mem_regMap (r := .d 1) (by decide) s
  · exact hostRead_of_mem_regMap (r := .d 2) (by decide) s
  · exact hostRead_of_mem_regMap (r := .d 3) (by decide) s
  · exact (extractLsb'_le64 _ (Nat.mod_lt n (by decide))).symm
  · exact (by decide : ∀ o ∈ [0x80, 0x88, 0x90, 0x98], 0x20 ≤ o) off h

/-- Settles O31: a bad access reaches no register, and only `CMD`, `LEN` and `OFF` can be written. -/
theorem badAccessesAreRejected : Obligations.BadAccessesAreRejected := by
  intro s off size v
  refine ⟨fun h => ⟨?_, hostRead_of_no_reg (accessedReg_of_bad h) s⟩, fun h => ?_⟩
  all_goals exact hostWrite_of_not_writable (by omega) v s

/-- Settles O41, by the turns of a step: each but the host's write of `LEN` and reset keeps `LEN`. -/
theorem onlyTheHostChangesLength : Obligations.OnlyTheHostChangesLength := by
  refine ⟨fun s t h hne => ?_, fun s v ts hs hi => ?_, fun s hi hl => ⟨?_, ?_, ?_⟩⟩
  · obtain ⟨-, hstep⟩ | ⟨x, xs, hs, hstep⟩ := step_cases s <;> rw [hstep] at h
    · exact absurd (sequencerTurn_keeps_len h) hne
    · obtain hkeep | ⟨v, rfl, hi, hv⟩ | ⟨rfl, hzero⟩ := takeTurn_len_cases h
      · exact absurd hkeep hne
      · exact .inl ⟨v, xs, hs, hi, hv⟩
      · exact .inr ⟨⟨xs, hs⟩, hzero⟩
  · rw [step_of_schedule_cons hs, takeTurn, hostWrite_len, writeWhenIdle_of_idle (s := s.withSchedule ts) hi]
    rfl
  · exact exec_reader_of_len_too_long (.inl rfl) hi hl
  · exact exec_reader_of_len_too_long (.inr (.inl rfl)) hi hl
  · exact exec_reader_of_len_too_long (.inr (.inr rfl)) hi hl

/-- Settles O24: offset `0x00` is `CMD`, which reads 0 and whose write is the command. -/
theorem commandRegisterReadsZero : Obligations.CommandRegisterReadsZero :=
  ⟨hostRead_of_mem_regMap (r := .cmd) (by decide), fun s w => hostWrite_cmd w s⟩

/-- Settles O26, by whether the engine is IDLE. -/
theorem lengthAndOffsetRegisters : Obligations.LengthAndOffsetRegisters := by
  refine ⟨hostRead_of_mem_regMap (r := .len) (by decide), hostRead_of_mem_regMap (r := .off) (by decide),
    fun s v hi => ?_, fun s v hi => ?_, fun s v hb => ⟨?_, ?_⟩⟩
  · rw [hostWrite_len, writeWhenIdle_of_idle hi, State.setLen]
  · rw [hostWrite_off, writeWhenIdle_of_idle hi, State.setOff]
  · rw [hostWrite_len, writeWhenIdle_of_busy hb]
  · rw [hostWrite_off, writeWhenIdle_of_busy hb]

/-- Settles O27: the register map lists the four accumulators and the four lanes, all read only. -/
theorem accumulatorAndLaneRegisters : Obligations.AccumulatorAndLaneRegisters := by
  refine ⟨fun s => ⟨?_, ?_, ?_, ?_, ?_, ?_, ?_, ?_⟩, fun s off v h => hostWrite_of_ge ?_ v s⟩
  · exact hostRead_of_mem_regMap (r := .p 0) (by decide) s
  · exact hostRead_of_mem_regMap (r := .p 1) (by decide) s
  · exact hostRead_of_mem_regMap (r := .p 2) (by decide) s
  · exact hostRead_of_mem_regMap (r := .p 3) (by decide) s
  · exact hostRead_of_mem_regMap (r := .l 0) (by decide) s
  · exact hostRead_of_mem_regMap (r := .l 1) (by decide) s
  · exact hostRead_of_mem_regMap (r := .l 2) (by decide) s
  · exact hostRead_of_mem_regMap (r := .l 3) (by decide) s
  · exact (by decide : ∀ o ∈ [0x20, 0x28, 0x30, 0x38, 0x40, 0x48, 0x50, 0x58], 0x20 ≤ o) off h

/-- Settles O28: the register map lists the four pairs of seeds, all read only. -/
theorem seedRegisters : Obligations.SeedRegisters := by
  refine ⟨fun s => ⟨?_, ?_, ?_, ?_⟩, fun s off v h => hostWrite_of_ge ?_ v s⟩
  · exact hostRead_of_mem_regMap (r := .sv 0) (by decide) s
  · exact hostRead_of_mem_regMap (r := .sv 1) (by decide) s
  · exact hostRead_of_mem_regMap (r := .sv 2) (by decide) s
  · exact hostRead_of_mem_regMap (r := .sv 3) (by decide) s
  · exact (by decide : ∀ o ∈ [0x60, 0x68, 0x70, 0x78], 0x20 ≤ o) off h

/-- Settles O32: `State.reset` is the reset state of the default configuration, and the reset turn is `resetEngine`. -/
theorem resetLeavesZeros : Obligations.ResetLeavesZeros := by
  refine ⟨fun c s h => ?_, fun s t h => ?_⟩
  · obtain rfl | rfl := h <;> exact ⟨rfl, rfl, rfl, rfl, rfl, rfl, rfl, rfl, rfl, rfl⟩
  · cases h
    exact State.resetEngine_input s

end Sys2Proof.Machine
end

section
/-! PROOFS. The memory family (20_memory.md): no step but a host store changes the input memory. -/

namespace Sys2Proof.Machine

variable {s t : State}

/-- What the host owns and the engine never writes (R65, R210): the input memory, the configuration and the turns still
to come. -/
structure SameHostSide (s t : State) : Prop where
  input : t.input = s.input
  cfg : t.cfg = s.cfg
  schedule : t.schedule = s.schedule

theorem SameHostSide.reject (s : State) (c : ErrCode) : SameHostSide s (s.reject c) := ⟨rfl, rfl, rfl⟩

/-- Every operation writes registers of the engine only. -/
theorem exec_sameHostSide {i : Instr} (h : exec i s = .next t) : SameHostSide s t := by
  cases i with
  | clr => obtain ⟨-, rfl⟩ | ⟨-, rfl⟩ := execClr_eq_next h <;> exact ⟨rfl, rfl, rfl⟩
  | ldchunk => obtain ⟨-, rfl⟩ | ⟨-, -, rfl⟩ | ⟨-, -, _, -, rfl⟩ := execLdchunk_eq_next h <;> exact ⟨rfl, rfl, rfl⟩
  | fold => obtain ⟨-, rfl⟩ | ⟨-, rfl⟩ := execFold_eq_next h <;> exact ⟨rfl, rfl, rfl⟩
  | absorb => obtain ⟨-, rfl⟩ | ⟨-, -, rfl⟩ | ⟨-, -, _, -, rfl⟩ := execAbsorb_eq_next h <;> exact ⟨rfl, rfl, rfl⟩
  | seed => obtain ⟨-, rfl⟩ | ⟨-, rfl⟩ := execSeed_eq_next h <;> exact ⟨rfl, rfl, rfl⟩
  | mix k => obtain ⟨-, rfl⟩ | ⟨-, rfl⟩ := execMix_eq_next h <;> exact ⟨rfl, rfl, rfl⟩
  | emit => obtain ⟨-, rfl⟩ | ⟨-, rfl⟩ := execEmit_eq_next h <;> exact ⟨rfl, rfl, rfl⟩
  | run => obtain ⟨-, rfl⟩ | ⟨-, -, rfl⟩ | ⟨-, -, rfl⟩ := execRun_eq_next h <;> exact ⟨rfl, rfl, rfl⟩

theorem command_sameHostSide {w : Word} (h : command w s = .next t) : SameHostSide s t := by
  obtain ⟨-, rfl⟩ | ⟨-, -, rfl⟩ | ⟨-, -, rfl⟩ | ⟨-, i, -, h⟩ := command_eq_next h
  · exact .reject s .busy
  · exact .reject s .illop
  · exact .reject s .rsvd
  · exact exec_sameHostSide h

/-- The sequencer reads the input in phase FOLD and writes it in no phase; a settled race changes registers and the
count of free choices only. -/
theorem sequencerTurn_sameHostSide (h : sequencerTurn s = .next t) : SameHostSide s t := by
  obtain ⟨-, rfl⟩ | ⟨-, -, _, -, rfl⟩ | ⟨-, -, rfl⟩ | ⟨-, rfl⟩ | ⟨-, -, rfl⟩ | ⟨-, -, rfl⟩ | ⟨-, rfl⟩ :=
    sequencerTurn_eq_next h
  all_goals constructor <;> simp

theorem hostRead_sameHostSide (off size : Nat) (s : State) : SameHostSide s (hostRead off size s) := by
  obtain ⟨_, -, h⟩ | ⟨-, h⟩ := hostRead_cases off size s <;> rw [h] <;> exact ⟨rfl, rfl, rfl⟩

theorem writeWhenIdle_sameHostSide {u : State} (hu : SameHostSide s u) : SameHostSide s (writeWhenIdle s u) := by
  obtain ⟨-, h⟩ | ⟨-, h⟩ := writeWhenIdle_cases s u <;> rw [h]
  · exact .reject s .busy
  · exact hu

theorem hostWrite_sameHostSide {off size : Nat} {v : Word} (h : hostWrite off size v s = .next t) :
    SameHostSide s t := by
  obtain rfl | ⟨-, h⟩ | ⟨-, rfl⟩ | ⟨-, rfl⟩ := hostWrite_eq_next h
  · exact .reject s .access
  · exact command_sameHostSide h
  · exact writeWhenIdle_sameHostSide ⟨rfl, rfl, rfl⟩
  · exact writeWhenIdle_sameHostSide ⟨rfl, rfl, rfl⟩

/-- Of the five turns only the host's store writes anything that is not the engine's. -/
theorem takeTurn_sameHostSide {x : Turn} (h : takeTurn x s = .next t) (hx : ∀ a bytes, x ≠ .store a bytes) :
    SameHostSide s t := by
  cases x with
  | read off size =>
    cases h
    exact hostRead_sameHostSide off size s
  | write off size v => exact hostWrite_sameHostSide h
  | store a bytes => exact absurd rfl (hx a bytes)
  | reset =>
    cases h
    exact ⟨rfl, rfl, rfl⟩
  | sequencer => exact sequencerTurn_sameHostSide h

/-- Settles O36, by the next turn: the sequencer's own when the schedule is empty, else the schedule's first. -/
theorem onlyStoresChangeTheInput : Obligations.OnlyStoresChangeTheInput := by
  intro s t h hstore
  obtain ⟨-, hstep⟩ | ⟨x, xs, hs, hstep⟩ := step_cases s <;> rw [hstep] at h
  · exact (sequencerTurn_sameHostSide h).input
  · refine (takeTurn_sameHostSide h fun a bytes hx => ?_).input
    exact hstore a bytes xs (hx ▸ hs)

end Sys2Proof.Machine
end

section
/-! PROOFS. The encoding family (30_encoding.md): the fields of a command word, the three ways a word decodes, the
opcode table, and the five cases of a word written to `CMD`. -/

namespace Sys2Proof

variable {w : Word}

/-! ### The fields of a command word -/

/-- R94, R96: the low byte is one of the eight assigned opcodes. -/
def AssignedOpcode (w : Word) : Prop := 1 ≤ (opcField w).toNat ∧ (opcField w).toNat ≤ 8

/-- R97: the reserved bits of the format that the opcode selects are zero. -/
def ReservedBitsZero (w : Word) : Prop := if (opcField w).toNat = 6 then zeroFieldK w = 0 else zeroFieldZ w = 0

/-- A format Z word is its reserved field and its opcode (R91). -/
theorem zeroFieldZ_append_opcField (w : Word) : zeroFieldZ w ++ opcField w = w :=
  (BitVec.extractLsb'_append_extractLsb'_eq_extractLsb' rfl).trans BitVec.extractLsb'_eq_self

/-- A format K word is its reserved field, its index and its opcode (R92). -/
theorem zeroFieldK_append_kField_append_opcField (w : Word) : zeroFieldK w ++ kField w ++ opcField w = w := by
  have hz : zeroFieldK w ++ kField w = zeroFieldZ w := BitVec.extractLsb'_append_extractLsb'_eq_extractLsb' rfl
  exact (congrArg (· ++ opcField w) hz).trans (zeroFieldZ_append_opcField w)

theorem eq_formatZ_opcField (h : zeroFieldZ w = 0) : w = formatZ (opcField w) := by
  conv_lhs => rw [← zeroFieldZ_append_opcField w, h]
  rfl

theorem eq_formatK_opcField (h : zeroFieldK w = 0) : w = formatK (kField w) (opcField w) := by
  conv_lhs => rw [← zeroFieldK_append_kField_append_opcField w, h]
  rfl

@[simp] theorem opcField_and (w m : Word) : opcField (w &&& m) = opcField w &&& opcField m :=
  BitVec.extractLsb'_and

@[simp] theorem zeroFieldZ_and (w m : Word) : zeroFieldZ (w &&& m) = zeroFieldZ w &&& zeroFieldZ m :=
  BitVec.extractLsb'_and

@[simp] theorem zeroFieldK_and (w m : Word) : zeroFieldK (w &&& m) = zeroFieldK w &&& zeroFieldK m :=
  BitVec.extractLsb'_and

theorem assignedOpcode_encode (i : Instr) : AssignedOpcode (encode i) := by
  cases i with
  | mix k => revert k; unfold AssignedOpcode; decide
  | _ => unfold AssignedOpcode; decide

theorem reservedBitsZero_encode (i : Instr) : ReservedBitsZero (encode i) := by
  cases i with
  | mix k => revert k; unfold ReservedBitsZero; decide
  | _ => unfold ReservedBitsZero; decide

/-! ### The three ways a word decodes -/

/-- What a word is, by what it decodes to (R95 cases 2, 3 and 5). -/
def SortedAs (w : Word) : Decoded → Prop
  | .illop => ¬ AssignedOpcode w
  | .rsvd => AssignedOpcode w ∧ ¬ ReservedBitsZero w
  | .instr i => w = encode i

/-- A format Z row of the decoder sorts the words of its opcode. -/
theorem sortedAs_formatZ_row {i : Instr} {n : Nat} (hopc : (opcField w).toNat = n) (hn : 1 ≤ n ∧ n ≤ 8 ∧ n ≠ 6)
    (hi : encode i = formatZ (BitVec.ofNat 8 n)) :
    SortedAs w (if zeroFieldZ w = 0 then .instr i else .rsvd) := by
  obtain ⟨hlow, hhigh, hnotMix⟩ := hn
  split
  · next hz =>
    have hbyte : opcField w = BitVec.ofNat 8 n := by simp [← hopc]
    exact (eq_formatZ_opcField hz).trans (hbyte ▸ hi.symm)
  · next hz => exact ⟨by simp [AssignedOpcode, hopc, hlow, hhigh], by simpa [ReservedBitsZero, hopc, hnotMix] using hz⟩

/-- The format K row of the decoder sorts the words of MIX's opcode. -/
theorem sortedAs_formatK_row (hopc : (opcField w).toNat = 6) :
    SortedAs w (if zeroFieldK w = 0 then .instr (.mix (kField w)) else .rsvd) := by
  split
  · next hz =>
    have hbyte : opcField w = 0x06 := BitVec.eq_of_toNat_eq hopc
    exact (eq_formatK_opcField hz).trans (by rw [hbyte]; rfl)
  · next hz => exact ⟨by simp [AssignedOpcode, hopc], by simpa [ReservedBitsZero, hopc] using hz⟩

/-- R95: the decoder sorts every word, by its opcode first and then by its reserved bits. -/
theorem sortedAs_decode (w : Word) : SortedAs w (decode w) := by
  unfold decode
  split
  case h_6 h => exact sortedAs_formatK_row h
  case h_9 =>
    rintro ⟨hlow, hhigh⟩
    simp only [imp_false] at *
    omega
  all_goals next h => exact sortedAs_formatZ_row h (by decide) rfl

/-- R96: the words with an unassigned opcode. -/
theorem decode_eq_illop_iff : decode w = .illop ↔ ¬ AssignedOpcode w := by
  have hsort := sortedAs_decode w
  constructor
  · intro h
    rwa [h] at hsort
  · intro h
    cases hd : decode w with
    | illop => rfl
    | rsvd =>
      rw [hd] at hsort
      exact absurd hsort.1 h
    | instr i =>
      rw [hd] at hsort
      exact absurd (hsort ▸ assignedOpcode_encode i) h

/-- R97: the words with an assigned opcode and a non-zero reserved bit. -/
theorem decode_eq_rsvd_iff : decode w = .rsvd ↔ AssignedOpcode w ∧ ¬ ReservedBitsZero w := by
  have hsort := sortedAs_decode w
  constructor
  · intro h
    rwa [h] at hsort
  · rintro ⟨hopc, hbits⟩
    cases hd : decode w with
    | illop => exact absurd hopc (decode_eq_illop_iff.mp hd)
    | rsvd => rfl
    | instr i =>
      rw [hd] at hsort
      exact absurd (hsort ▸ reservedBitsZero_encode i) hbits

/-- R94: the decoder reads an operation's command word back. -/
theorem decode_encode (i : Instr) : decode (encode i) = .instr i := by
  cases i with
  | mix k => revert k; decide
  | _ => decide

/-- R95 case 5: a word with an assigned opcode and zero reserved bits is an operation's command word. -/
theorem exists_eq_encode (hopc : AssignedOpcode w) (hbits : ReservedBitsZero w) : ∃ i, w = encode i := by
  have hsort := sortedAs_decode w
  cases hd : decode w with
  | illop => exact absurd hopc (decode_eq_illop_iff.mp hd)
  | rsvd => exact absurd hbits (decode_eq_rsvd_iff.mp hd).2
  | instr i =>
    rw [hd] at hsort
    exact ⟨i, hsort⟩

/-! ### The opcode table -/

/-- R95: an operation's command word matches the one row of its mnemonic. -/
theorem encodedInTable : ∀ i, Laws.EncodedInTable.Statement i
  | .clr => Laws.EncodedInTable.clr
  | .ldchunk => Laws.EncodedInTable.ldchunk
  | .fold => Laws.EncodedInTable.fold
  | .absorb => Laws.EncodedInTable.absorb
  | .seed => Laws.EncodedInTable.seed
  | .mix k => Laws.EncodedInTable.mix k
  | .emit => Laws.EncodedInTable.emit
  | .run => Laws.EncodedInTable.run

theorem length_filter_matches_encode (i : Instr) : (opcodeTable.filter (·.matches (encode i))).length = 1 := by
  rw [← List.length_map OpcodeRow.mnemonic, encodedInTable i]
  rfl

/-- R94: a row's mask covers the opcode and the reserved bits of the row's format, and the row's pattern has an assigned
opcode and zero reserved bits. -/
theorem fields_of_row : ∀ r ∈ opcodeTable,
    opcField r.mask = BitVec.allOnes 8 ∧ AssignedOpcode r.pattern ∧
    if (opcField r.pattern).toNat = 6 then zeroFieldK r.mask = BitVec.allOnes 53 ∧ zeroFieldK r.pattern = 0
    else zeroFieldZ r.mask = BitVec.allOnes 56 ∧ zeroFieldZ r.pattern = 0 := by
  unfold AssignedOpcode
  decide

/-- R95: a word that matches a row has the row's opcode, so it is assigned, and its reserved bits are zero. -/
theorem assignedOpcode_and_reservedBitsZero_of_matches {r : OpcodeRow} (hr : r ∈ opcodeTable)
    (hmatch : r.matches w = true) : AssignedOpcode w ∧ ReservedBitsZero w := by
  obtain ⟨hmask, hopc, hreserved⟩ := fields_of_row r hr
  have hm : w &&& r.mask = r.pattern := by simpa [OpcodeRow.matches] using hmatch
  have hbyte : opcField r.pattern = opcField w := by rw [← hm, opcField_and, hmask, BitVec.and_allOnes]
  refine ⟨by rwa [AssignedOpcode, hbyte] at hopc, ?_⟩
  rw [hbyte] at hreserved
  by_cases hmix : (opcField w).toNat = 6
  · rw [if_pos hmix, ← hm, zeroFieldK_and] at hreserved
    obtain ⟨hones, hzero⟩ := hreserved
    rw [ReservedBitsZero, if_pos hmix]
    rwa [hones, BitVec.and_allOnes] at hzero
  · rw [if_neg hmix, ← hm, zeroFieldZ_and] at hreserved
    obtain ⟨hones, hzero⟩ := hreserved
    rw [ReservedBitsZero, if_neg hmix]
    rwa [hones, BitVec.and_allOnes] at hzero

theorem wellFormedWord_iff : wellFormedWord w = true ↔ ∃ i, w = encode i := by
  unfold wellFormedWord
  constructor
  · intro h
    obtain ⟨r, hr, hm⟩ := List.any_eq_true.mp h
    obtain ⟨hopc, hbits⟩ := assignedOpcode_and_reservedBitsZero_of_matches hr hm
    exact exists_eq_encode hopc hbits
  · rintro ⟨i, rfl⟩
    have hpos : 0 < (opcodeTable.filter (·.matches (encode i))).length := by simp [length_filter_matches_encode]
    obtain ⟨r, hr⟩ := List.exists_mem_of_length_pos hpos
    obtain ⟨hr, hm⟩ := List.mem_filter.mp hr
    exact List.any_eq_true.mpr ⟨r, hr, hm⟩

/-- R95: at most one row of the opcode table matches a word. -/
theorem length_filter_matches_le_one (w : Word) : (opcodeTable.filter (·.matches w)).length ≤ 1 := by
  cases hw : wellFormedWord w with
  | true =>
    obtain ⟨i, rfl⟩ := wellFormedWord_iff.mp hw
    exact (length_filter_matches_encode i).le
  | false =>
    have hnone : opcodeTable.filter (·.matches w) = [] :=
      List.filter_eq_nil_iff.mpr (by simpa using List.any_eq_false.mp hw)
    simp [hnone]

/-- The opcodes of the table's rows are the assigned ones (R94). -/
theorem exists_row_opcode_iff :
    (∃ r ∈ opcodeTable, w.extractLsb' 0 8 = r.pattern.extractLsb' 0 8) ↔ AssignedOpcode w := by
  simp only [opcodeTable, AssignedOpcode, opcField, List.mem_cons, List.not_mem_nil, or_false, exists_eq_or_imp,
    exists_eq_left, ← BitVec.toNat_inj]
  have hrows : ∀ n : Nat, n = 1 ∨ n = 2 ∨ n = 3 ∨ n = 4 ∨ n = 5 ∨ n = 6 ∨ n = 7 ∨ n = 8 ↔ 1 ≤ n ∧ n ≤ 8 := by omega
  exact hrows _

end Sys2Proof

namespace Sys2Proof.Machine

variable {w : Word} {s : State}

/-! ### A word written to `CMD` -/

theorem command_of_busy (w : Word) (h : s.phase ≠ .idle) : command w s = .next (s.reject .busy) := by
  simp [command, h]

theorem command_of_illop (hi : s.phase = .idle) (hopc : ¬ AssignedOpcode w) :
    command w s = .next (s.reject .illop) := by
  simp [command, hi, decode_eq_illop_iff.mpr hopc]

theorem command_of_rsvd (hi : s.phase = .idle) (hopc : AssignedOpcode w) (hbits : ¬ ReservedBitsZero w) :
    command w s = .next (s.reject .rsvd) := by
  simp [command, hi, decode_eq_rsvd_iff.mpr ⟨hopc, hbits⟩]

theorem command_encode (i : Instr) (hi : s.phase = .idle) : command (encode i) s = exec i s := by
  simp [command, hi, decode_encode]

/-- R95 case 4: the words `0x02`, `0x04` and `0x08` are those of the operations that read the input memory. -/
theorem command_of_len_too_long (hi : s.phase = .idle) (hw : w = 0x02 ∨ w = 0x04 ∨ w = 0x08)
    (hl : s.cfg.lenMax.val < s.len.toNat) : command w s = .next (s.reject .lenRange) := by
  obtain ⟨i, hread, rfl⟩ : ∃ i, (i = .ldchunk ∨ i = .absorb ∨ i = .run) ∧ w = encode i := by
    obtain rfl | rfl | rfl := hw
    · exact ⟨.ldchunk, by simp, rfl⟩
    · exact ⟨.absorb, by simp, rfl⟩
    · exact ⟨.run, by simp, rfl⟩
  rw [command_encode i hi]
  exact exec_reader_of_len_too_long hread hi hl

/-- R95, last paragraph: a word that matches no row is rejected by whether its opcode is some row's. -/
theorem command_of_not_wellFormedWord (hi : s.phase = .idle) (hw : wellFormedWord w = false) :
    command w s = .next (s.reject
      (if ∃ r ∈ opcodeTable, w.extractLsb' 0 8 = r.pattern.extractLsb' 0 8 then .rsvd else .illop)) := by
  by_cases hopc : AssignedOpcode w
  · have hbits : ¬ ReservedBitsZero w := fun hbits =>
      Bool.eq_false_iff.mp hw (wellFormedWord_iff.mpr (exists_eq_encode hopc hbits))
    rw [if_pos (exists_row_opcode_iff.mpr hopc), command_of_rsvd hi hopc hbits]
  · rw [if_neg (mt exists_row_opcode_iff.mp hopc), command_of_illop hi hopc]

/-- Settles O20, by the order of the decoder: BUSY, the opcode, the reserved bits, and then the operation's own length
check. -/
theorem commandFallsInFiveCases : Obligations.CommandFallsInFiveCases := by
  intro w s
  refine ⟨command_of_busy w, fun hi hopc => command_of_illop hi ?_, fun hi hlow hhigh hbits => ?_,
    command_of_len_too_long, fun hi hlow hhigh hbits _ => ?_, wellFormedWord_iff, length_filter_matches_le_one w,
    command_of_not_wellFormedWord⟩
  · rintro ⟨hlow, hhigh⟩
    exact hopc.elim (Nat.ne_of_gt hlow) (Nat.not_lt.mpr hhigh)
  · refine command_of_rsvd hi ⟨hlow, hhigh⟩ ?_
    rw [ReservedBitsZero, apply_ite Not]
    exact hbits
  · obtain ⟨i, rfl⟩ := exists_eq_encode ⟨hlow, hhigh⟩ hbits
    exact ⟨i, rfl, command_encode i hi⟩

end Sys2Proof.Machine
end

section
/-! PROOFS. The init and load family (40_init_and_load.md): the encoding and the rejections that the format Z operations
have in common, the lanes of a chunk that has been written, CLR and LDCHUNK. -/

namespace Sys2Proof.Machine

variable {s : State}

/-! ### The format Z operations -/

/-- R95 case 1: every operation is rejected while a RUN is in progress. -/
theorem exec_of_busy (i : Instr) (h : s.phase ≠ .idle) : exec i s = .next (s.reject .busy) := by
  cases i <;> exact whenIdle_of_busy h _

/-- An operation whose command word is 56 zeros and an assigned opcode other than MIX's keeps the format Z rule. -/
theorem formatZRule_of_encode {opc : BitVec 8} {i : Instr} (hi : encode i = formatZ opc)
    (hopc : 1 ≤ opc.toNat ∧ opc.toNat ≤ 8 ∧ opc.toNat ≠ 6) : FormatZRule opc i := by
  obtain ⟨hlow, hhigh, hnotMix⟩ := hopc
  refine ⟨hi, (congrArg decode hi).symm.trans (decode_encode i), fun s => exec_of_busy i, fun s w hidle hw hz => ?_⟩
  have hbyte : opcField w = opc := hw
  refine command_of_rsvd hidle ?_ ?_
  · exact ⟨hbyte.symm ▸ hlow, hbyte.symm ▸ hhigh⟩
  · rwa [ReservedBitsZero, hbyte, if_neg hnotMix]

/-! ### The lanes of a written chunk -/

/-- R111: the lanes of the padded view are `LANE(1, o)` to `LANE(4, o)`. -/
theorem State.lanesAt_pb (s : State) (o : Nat) : lanesAt s.pb o = ⟨s.lane 1 o, s.lane 2 o, s.lane 3 o, s.lane 4 o⟩ :=
  rfl

/-- R61, R112: a load whose chunk has been written goes on with the four lanes of the chunk at `OFF`. -/
theorem withChunk_of_chunkWritten (h : s.ChunkWritten) (next : Quad Word → State) :
    withChunk s s.commandByte next = .next (next
      ⟨s.lane 1 s.off.toNat, s.lane 2 s.off.toNat, s.lane 3 s.off.toNat, s.lane 4 s.off.toNat⟩) := by
  have hload : chunkLanes s.commandByte s.len.toNat s.off.toNat = some (lanesAt s.pb s.off.toNat) :=
    chunkLanes_of_written h
  rw [withChunk_of_some hload, State.lanesAt_pb]

/-- R95: an IDLE engine with `LEN <= LEN_MAX` accepts LDCHUNK. -/
theorem exec_ldchunk_of_accepted (hi : s.phase = .idle) (hl : s.LenFits) :
    exec .ldchunk s = withChunk s s.commandByte s.loadLanes :=
  (whenIdle_of_idle hi _).trans (whenLenFits_of_le hl _)

/-! ### The statements -/

/-- Settles O2: the format Z rule, the length check of the readers, and the lanes of a written chunk. -/
theorem ldchunkLoadsFourLanes : Obligations.LdchunkLoadsFourLanes := by
  refine ⟨formatZRule_of_encode rfl (by decide), fun s hi hl => exec_reader_of_len_too_long (.inl rfl) hi hl,
    fun s hi hl hw => ?_⟩
  rw [exec_ldchunk_of_accepted hi hl, withChunk_of_chunkWritten hw, State.loadLanes]

/-- Settles O1: the format Z rule, and `clearCall` on an IDLE engine. -/
theorem clrClearsTheCall : Obligations.ClrClearsTheCall :=
  ⟨formatZRule_of_encode rfl (by decide), fun _ hi => whenIdle_of_idle hi _⟩

end Sys2Proof.Machine
end

section
/-! PROOFS. The fold family (41_fold.md): the advance of `OFF` past a chunk, FOLD and ABSORB. -/

namespace Sys2Proof.Machine

variable {s : State}

/-! ### One iteration of the fold loop -/

/-- R122: the 64-bit sum that moves `OFF` past a chunk is the spec's `(OFF + 32) mod 2^64`, the wrap included. -/
theorem off_add_chunk (o : Word) : o + 32 = BitVec.ofNat 64 ((o.toNat + 32) % 2 ^ 64) :=
  BitVec.eq_of_toNat_eq (by simp)

/-- R122: a chunk folded and passed over, field by field. -/
theorem State.absorbLanes_eq (s : State) (ws : Quad Word) :
    s.absorbLanes ws = { s with
      lanes := ws
      acc := ⟨s.acc.x1 ^^^ ws.x1, s.acc.x2 ^^^ ws.x2, s.acc.x3 ^^^ ws.x3, s.acc.x4 ^^^ ws.x4⟩
      off := BitVec.ofNat 64 ((s.off.toNat + 32) % 2 ^ 64) } := by
  rw [← off_add_chunk, State.absorbLanes, quadXor]

/-- R95: an IDLE engine with `LEN <= LEN_MAX` accepts ABSORB. -/
theorem exec_absorb_of_accepted (hi : s.phase = .idle) (hl : s.LenFits) :
    exec .absorb s = withChunk s s.commandByte s.absorbLanes :=
  (whenIdle_of_idle hi _).trans (whenLenFits_of_le hl _)

/-! ### The statements -/

/-- Settles O4: the format Z rule, the length check of the readers, and the lanes of a written chunk folded and passed
over. -/
theorem absorbIsOneFoldIteration : Obligations.AbsorbIsOneFoldIteration := by
  refine ⟨formatZRule_of_encode rfl (by decide), fun s hi hl => exec_reader_of_len_too_long (.inr (.inl rfl)) hi hl,
    fun s hi hl hw => ?_⟩
  rw [exec_absorb_of_accepted hi hl, withChunk_of_chunkWritten hw, State.absorbLanes_eq]

/-- Settles O3: the format Z rule, and `xorAcc` of the lanes on an IDLE engine. -/
theorem foldXorsLanesIntoAccumulators : Obligations.FoldXorsLanesIntoAccumulators :=
  ⟨formatZRule_of_encode rfl (by decide), fun _ hi => whenIdle_of_idle hi _⟩

end Sys2Proof.Machine
end

section
/-! PROOFS. The seed family (42_seed.md): the halves that a snapshot of the accumulators takes, and SEED. -/

namespace Sys2Proof.Machine

/-- R131: a snapshot takes bits 63 to 32, then bits 31 to 0, of each accumulator in turn, and writes nothing else. -/
theorem State.takeSeeds_eq (s : State) :
    s.takeSeeds = { s with
      seeds := ⟨s.acc.x1.extractLsb' 32 32, s.acc.x1.extractLsb' 0 32, s.acc.x2.extractLsb' 32 32,
                s.acc.x2.extractLsb' 0 32, s.acc.x3.extractLsb' 32 32, s.acc.x3.extractLsb' 0 32,
                s.acc.x4.extractLsb' 32 32, s.acc.x4.extractLsb' 0 32⟩ } := by
  simp only [State.takeSeeds, seedsOf, highHalf, lowHalf]

/-- R95: an IDLE engine accepts SEED. -/
theorem exec_seed_of_idle {s : State} (hi : s.phase = .idle) : exec .seed s = .next s.takeSeeds :=
  whenIdle_of_idle hi _

/-! ### The statement -/

/-- Settles O5: the format Z rule, and the snapshot of the halves on an IDLE engine. -/
theorem seedSnapshotsTheHalves : Obligations.SeedSnapshotsTheHalves := by
  refine ⟨formatZRule_of_encode rfl (by decide), fun s hi => ?_⟩
  rw [exec_seed_of_idle hi, State.takeSeeds_eq]

end Sys2Proof.Machine
end

section
/-! PROOFS. The mix family (43_mix.md): MIX's command word, and one mixing iteration block by block. -/

namespace Sys2Proof.Machine

/-! ### The format K operation -/

/-- R97: a word with MIX's opcode and a non-zero bit among bits 63 to 11 is rejected with code 2. -/
theorem command_of_mix_rsvd {s : State} {w : Word} (hi : s.phase = .idle) (hw : w.extractLsb' 0 8 = 0x06#8)
    (hz : w.extractLsb' 11 53 ≠ 0) : command w s = .next (s.reject .rsvd) := by
  have hmix : (opcField w).toNat = 6 := congrArg BitVec.toNat hw
  refine command_of_rsvd hi ?_ ?_
  · rw [AssignedOpcode, hmix]
    decide
  · rwa [ReservedBitsZero, if_pos hmix]

/-! ### One mixing iteration -/

/-- R141: an iteration driven by `S[n]` folds the four blocks of `GEN(S[n])`, as little-endian words, into the
accumulators, and writes nothing else. -/
theorem State.mixSeed_eq (s : State) (n : Nat) :
    s.mixSeed n = { s with
      acc := ⟨s.acc.x1 ^^^ le64 (generate s.cfg.gen (seedGet s.seeds n).toInt).x1,
              s.acc.x2 ^^^ le64 (generate s.cfg.gen (seedGet s.seeds n).toInt).x2,
              s.acc.x3 ^^^ le64 (generate s.cfg.gen (seedGet s.seeds n).toInt).x3,
              s.acc.x4 ^^^ le64 (generate s.cfg.gen (seedGet s.seeds n).toInt).x4⟩ } := by
  simp only [State.mixSeed, State.xorAcc, quadXor, mixWords, quadMap]

/-- R95: an IDLE engine accepts MIX with every seed index. -/
theorem exec_mix_of_idle {s : State} (k : BitVec 3) (hi : s.phase = .idle) :
    exec (.mix k) s = .next (s.mixSeed k.toNat) :=
  whenIdle_of_idle hi _

/-! ### The statement -/

/-- Settles O6: MIX's command word and its rejections, and one mixing iteration on an IDLE engine. -/
theorem mixXorsGeneratorBlocks : Obligations.MixXorsGeneratorBlocks := by
  intro k
  refine ⟨rfl, decode_encode (.mix k), fun s => exec_of_busy (.mix k), fun s w => command_of_mix_rsvd, fun s hi => ?_⟩
  rw [exec_mix_of_idle k hi, State.mixSeed_eq]

end Sys2Proof.Machine
end

section
/-! PROOFS. The emit family (44_emit.md): the bytes of a word, the layout of the digest, and EMIT. -/

namespace Sys2Proof.Machine

/-! ### The bytes of a word -/

/-- Byte `b` of `BYTES_LE64` (R10). -/
theorem octetGet_bytesLE64 (v : Word) {b : Nat} (hb : b < 8) : octetGet (bytesLE64 v) b = v.extractLsb' (8 * b) 8 := by
  interval_cases b <;> rfl

/-- R10: `LE64` puts a word's bytes together again, since its eight slices adjoin. -/
@[simp] theorem le64_bytesLE64 (v : Word) : le64 (bytesLE64 v) = v := by
  simp (disch := rfl) only [le64, bytesLE64, BitVec.extractLsb'_append_extractLsb'_eq_extractLsb',
    BitVec.extractLsb'_eq_self]

/-! ### The layout of the digest -/

@[simp] theorem quadGet_quadMap {α β : Type} (f : α → β) (q : Quad α) (n : Nat) :
    quadGet (quadMap f q) n = f (quadGet q n) := by
  unfold quadGet
  split <;> rfl

/-- R162, byte by byte. -/
theorem byteOf_digestBytes (q : Quad Word) (n : Nat) :
    byteOf (digestBytes q) n = (quadGet q (n / 8)).extractLsb' (8 * (n % 8)) 8 := by
  rw [byteOf, digestBytes, quadGet_quadMap, octetGet_bytesLE64 _ (Nat.mod_lt n (by decide))]

/-- R161: byte `b` of accumulator `j` stands at digest byte `8j + b`. -/
theorem byteOf_digestBytes_of_group (q : Quad Word) (j : Nat) {b : Nat} (hb : b < 8) :
    byteOf (digestBytes q) (8 * j + b) = (quadGet q j).extractLsb' (8 * b) 8 := by
  have hdiv : (8 * j + b) / 8 = j := by omega
  have hmod : (8 * j + b) % 8 = b := by omega
  rw [byteOf_digestBytes, hdiv, hmod]

/-! ### EMIT -/

/-- R95: an IDLE engine accepts EMIT. -/
theorem exec_emit_of_idle {s : State} (hi : s.phase = .idle) : exec .emit s = .next s.emitDigest :=
  whenIdle_of_idle hi _

/-! ### The statements -/

/-- Settles O55: the byte formula of the digest, and each group of eight bytes read back as its accumulator. -/
theorem digestLayout : Obligations.DigestLayout := by
  refine fun q n _ => ⟨byteOf_digestBytes q n, ?_⟩
  simp only [digestBytes, quadMap, le64_bytesLE64]

/-- Settles O7: the format Z rule, and the digest of the accumulators on an IDLE engine. -/
theorem emitSerializesAccumulators : Obligations.EmitSerializesAccumulators :=
  ⟨formatZRule_of_encode rfl (by decide), fun s hi =>
    ⟨s.emitDigest, exec_emit_of_idle hi, fun j _ _ hb => byteOf_digestBytes_of_group s.acc j hb, rfl⟩⟩

end Sys2Proof.Machine
end

section
/-! PROOFS. The run family (45_run.md): the acceptance of RUN, and the sequencer's step in each phase of a RUN in
progress. -/

namespace Sys2Proof.Machine

variable {s : State}

/-! ### Acceptance -/

/-- R95, R172: an IDLE engine with `LEN <= LEN_MAX` accepts RUN. -/
theorem exec_run_of_accepted (hi : s.phase = .idle) (hl : s.LenFits) : exec .run s = .next s.startRun :=
  (whenIdle_of_idle hi _).trans (whenLenFits_of_le hl _)

/-! ### The sequencer's step, phase by phase -/

/-- R174: before the end of the input the fold step loads the chunk at `OFF`, folds it and passes over it. -/
theorem sequencerTurn_of_fold_lt (hp : s.phase = .fold) (ho : s.off.toNat < s.len.toNat) :
    sequencerTurn s = withChunk s s.runByte s.absorbLanes := by
  simp only [sequencerTurn, hp, sequencerFold, if_pos ho]

/-- R174: at or beyond the end of the input the fold step ends the phase. -/
theorem sequencerTurn_of_fold_le (hp : s.phase = .fold) (ho : s.len.toNat ≤ s.off.toNat) :
    sequencerTurn s = .next (s.enter .seed) := by
  simp only [sequencerTurn, hp, sequencerFold, if_neg (Nat.not_lt.mpr ho)]

/-- R175. -/
theorem sequencerTurn_of_seed (hp : s.phase = .seed) :
    sequencerTurn s = .next ((s.takeSeeds.setK 0).enter .mix) := by
  simp only [sequencerTurn, hp, sequencerSeed]

/-- R176: while `K` is below 8 the mix step mixes with `S[K]` and counts. -/
theorem sequencerTurn_of_mix_lt (hp : s.phase = .mix) (hk : s.k.toNat < 8) :
    sequencerTurn s = .next ((s.mixSeed s.k.toNat).setK (s.k + 1)) := by
  simp only [sequencerTurn, hp, sequencerMix, if_pos hk]

/-- R176: at 8 the mix step ends the phase. -/
theorem sequencerTurn_of_mix_eq (hp : s.phase = .mix) (hk : s.k = 8) : sequencerTurn s = .next (s.enter .emit) := by
  have hnotLess : ¬ s.k.toNat < 8 := by rw [hk]; decide
  simp only [sequencerTurn, hp, sequencerMix, if_neg hnotLess, if_pos hk]

/-- R177, R215. -/
theorem sequencerTurn_of_emit (hp : s.phase = .emit) :
    sequencerTurn s = .next (s.settleRaces.emitDigest.enter .idle) := by
  simp only [sequencerTurn, hp, sequencerEmit]

/-! ### What a settled race leaves alone -/

/-- R215: settling the races draws new digest words at most, and writes nothing else. -/
theorem State.settleRaces_frame (s : State) :
    s.settleRaces = { s with acc := s.settleRaces.acc, draws := s.settleRaces.draws } := by
  by_cases hr : s.races = []
  · rw [State.settleRaces_of_no_races s hr]
  · rw [State.settleRaces_of_races s hr]

/-! ### The statements -/

/-- Settles O12: without a race the fold step reads what ABSORB reads, so a written chunk loads its four lanes. -/
theorem foldPhaseLoadsOrEnds : Obligations.FoldPhaseLoadsOrEnds := by
  refine ⟨fun s hp ho hr hw => ?_, fun s hp ho => sequencerTurn_of_fold_le hp ho⟩
  rw [sequencerTurn_of_fold_lt hp ho, State.runByte_of_no_races hr, withChunk_of_chunkWritten hw,
    State.absorbLanes_eq, off_add_chunk]

/-- Settles O8: the format Z rule, the length check of the readers, and `startRun` on an IDLE engine. -/
theorem runIsAccepted : Obligations.RunIsAccepted :=
  ⟨formatZRule_of_encode rfl (by decide), fun _ hi hl => exec_reader_of_len_too_long (.inr (.inr rfl)) hi hl,
    fun s hi hl => ⟨s.startRun, exec_run_of_accepted hi hl, rfl⟩⟩

/-- Settles O14: the snapshot of the halves that SEED takes, with `K` cleared and the next phase entered. -/
theorem seedPhaseTakesSeeds : Obligations.SeedPhaseTakesSeeds := by
  intro s hp
  rw [sequencerTurn_of_seed hp, State.takeSeeds_eq, State.setK, State.enter]

/-- Settles O15: the mixing iteration driven by `S[K]` with `K` incremented, or the next phase. -/
theorem mixPhaseMixesOrEnds : Obligations.MixPhaseMixesOrEnds :=
  ⟨fun _ hp hk => sequencerTurn_of_mix_lt hp hk, fun _ hp hk => sequencerTurn_of_mix_eq hp hk⟩

/-- Settles O16: the digest of the accumulators after the races are settled; `K` and `OFF` are the invariant's. -/
theorem emitPhaseEndsTheRun : Obligations.EmitPhaseEndsTheRun := by
  refine fun s hp => ⟨s.settleRaces.emitDigest.enter .idle, sequencerTurn_of_emit hp,
    fun j _ _ hb => byteOf_digestBytes_of_group s.settleRaces.acc j hb, fun hr => ?_,
    congrArg (fun u => u.emitDigest.enter .idle) s.settleRaces_frame, fun hinv => ?_⟩
  · rw [State.settleRaces_of_no_races s hr]
    exact ⟨rfl, rfl⟩
  · simp only [State.enter_k, State.emitDigest_k, State.settleRaces_k, State.enter_off, State.emitDigest_off,
      State.settleRaces_off]
    exact ⟨hinv.emitK hp, hinv.passedOff (.inr (.inr hp))⟩

end Sys2Proof.Machine
end

section
/-! PROOFS. The exceptions family (60_exceptions.md): the code of a rejected access, what a reject leaves alone, and the
three ways a recorded error is taken away. -/

namespace Sys2Proof.Machine

variable {s t : State}

/-! ### A recorded error -/

/-- A word that decodes to an operation is that operation's command word (R94). -/
theorem eq_encode_of_decode {w : Word} {i : Instr} (h : decode w = .instr i) : w = encode i := by
  have hsort := sortedAs_decode w
  rwa [h] at hsort

/-- A reject with an error on record leaves the record as it is. -/
theorem State.reject_err_of_recorded (he : s.err ≠ .none) (c : ErrCode) : (s.reject c).err = s.err := by
  rw [State.reject_err, if_neg he]

/-- Of the operations only an accepted CLR and an accepted RUN take a recorded error away (R110, R172, R192). -/
theorem exec_err_cases {i : Instr} (h : exec i s = .next t) (he : s.err ≠ .none) :
    t.err = s.err ∨ (t.err = .none ∧ s.phase = .idle ∧ (i = .clr ∨ (i = .run ∧ s.LenFits))) := by
  have hreject := State.reject_err_of_recorded he
  cases i with
  | clr =>
    obtain ⟨-, rfl⟩ | ⟨hi, rfl⟩ := execClr_eq_next h
    · exact .inl (hreject .busy)
    · exact .inr ⟨rfl, hi, .inl rfl⟩
  | run =>
    obtain ⟨-, rfl⟩ | ⟨-, -, rfl⟩ | ⟨hi, hl, rfl⟩ := execRun_eq_next h
    · exact .inl (hreject .busy)
    · exact .inl (hreject .lenRange)
    · exact .inr ⟨rfl, hi, .inr ⟨rfl, hl⟩⟩
  | ldchunk => obtain ⟨-, rfl⟩ | ⟨-, -, rfl⟩ | ⟨-, -, _, -, rfl⟩ := execLdchunk_eq_next h <;> simp [he]
  | absorb => obtain ⟨-, rfl⟩ | ⟨-, -, rfl⟩ | ⟨-, -, _, -, rfl⟩ := execAbsorb_eq_next h <;> simp [he]
  | fold => obtain ⟨-, rfl⟩ | ⟨-, rfl⟩ := execFold_eq_next h <;> simp [he]
  | seed => obtain ⟨-, rfl⟩ | ⟨-, rfl⟩ := execSeed_eq_next h <;> simp [he]
  | mix k => obtain ⟨-, rfl⟩ | ⟨-, rfl⟩ := execMix_eq_next h <;> simp [he]
  | emit => obtain ⟨-, rfl⟩ | ⟨-, rfl⟩ := execEmit_eq_next h <;> simp [he]

/-- Of the words written to `CMD` only CLR's and RUN's take a recorded error away. -/
theorem command_err_cases {w : Word} (h : command w s = .next t) (he : s.err ≠ .none) :
    t.err = s.err ∨ (t.err = .none ∧ s.phase = .idle ∧ (w = 0x01 ∨ (w = 0x08 ∧ s.LenFits))) := by
  obtain ⟨-, rfl⟩ | ⟨-, -, rfl⟩ | ⟨-, -, rfl⟩ | ⟨-, i, hw, hexec⟩ := command_eq_next h
  · exact .inl (State.reject_err_of_recorded he .busy)
  · exact .inl (State.reject_err_of_recorded he .illop)
  · exact .inl (State.reject_err_of_recorded he .rsvd)
  · obtain rfl := eq_encode_of_decode hw
    obtain hkeep | ⟨hnone, hi, rfl | ⟨rfl, hl⟩⟩ := exec_err_cases hexec he
    · exact .inl hkeep
    · exact .inr ⟨hnone, hi, .inl rfl⟩
    · exact .inr ⟨hnone, hi, .inr ⟨rfl, hl⟩⟩

theorem sequencerTurn_keeps_err (h : sequencerTurn s = .next t) : t.err = s.err := by
  obtain ⟨-, rfl⟩ | ⟨-, -, _, -, rfl⟩ | ⟨-, -, rfl⟩ | ⟨-, rfl⟩ | ⟨-, -, rfl⟩ | ⟨-, -, rfl⟩ | ⟨-, rfl⟩ :=
    sequencerTurn_eq_next h
  all_goals simp

theorem hostRead_keeps_recorded_err (he : s.err ≠ .none) (off size : Nat) : (hostRead off size s).err = s.err := by
  obtain ⟨_, -, h⟩ | ⟨-, h⟩ := hostRead_cases off size s <;> simp [h, he]

/-- A write of `LEN` or `OFF` rejects or keeps `ERR` (R44, R45). -/
theorem writeWhenIdle_keeps_recorded_err {u : State} (he : s.err ≠ .none) (hu : u.err = s.err) :
    (writeWhenIdle s u).err = s.err := by
  obtain ⟨-, h⟩ | ⟨-, h⟩ := writeWhenIdle_cases s u <;> rw [h]
  · exact State.reject_err_of_recorded he .busy
  · exact hu

/-- Of the host's writes only an accepted command takes a recorded error away. -/
theorem hostWrite_err_cases {off size : Nat} {v : Word} (h : hostWrite off size v s = .next t) (he : s.err ≠ .none) :
    t.err = s.err ∨ (size = 8 ∧ off = 0x00 ∧ command v s = .next t) := by
  obtain rfl | ⟨hr, h⟩ | ⟨-, rfl⟩ | ⟨-, rfl⟩ := hostWrite_eq_next h
  · exact .inl (State.reject_err_of_recorded he .access)
  · obtain ⟨hsize, hoff⟩ := accessedReg_eq_cmd_iff.mp hr
    exact .inr ⟨hsize, hoff, h⟩
  · exact .inl (writeWhenIdle_keeps_recorded_err he rfl)
  · exact .inl (writeWhenIdle_keeps_recorded_err he rfl)

/-- A turn keeps a recorded error, or is reset, or is a command that is written to `CMD` (R192). -/
theorem takeTurn_err_cases {x : Turn} (h : takeTurn x s = .next t) (he : s.err ≠ .none) :
    t.err = s.err ∨ (x = .reset ∧ t.err = .none) ∨ (∃ v, x = .write 0x00 8 v ∧ command v s = .next t) := by
  cases x with
  | read off size =>
    cases h
    exact .inl (hostRead_keeps_recorded_err he off size)
  | write off size v =>
    obtain h | ⟨rfl, rfl, h⟩ := hostWrite_err_cases h he
    · exact .inl h
    · exact .inr (.inr ⟨v, rfl, h⟩)
  | store a bytes =>
    obtain ⟨-, rfl⟩ := hostStore_eq_next h
    exact .inl (State.storeBytes_same bytes s a).err
  | reset =>
    cases h
    exact .inr (.inl ⟨rfl, rfl⟩)
  | sequencer => exact .inl (sequencerTurn_keeps_err h)

/-! ### The statements -/

/-- Settles O21: a bad access is rejected before the register is looked at, BUSY before the value, and the rest is the
order of the five cases of a command word. -/
theorem firstCauseGivesTheCode : Obligations.FirstCauseGivesTheCode := by
  intro off size v s
  obtain ⟨hbusy, hillop, hrsvd, hlenRange, -⟩ := commandFallsInFiveCases v s
  refine ⟨fun h => hostWrite_of_not_writable h v s, fun h => hostRead_of_no_reg (accessedReg_of_bad (by omega)) s,
    ?_, ?_, ?_, ?_⟩
  · rintro rfl (rfl | rfl | rfl) hb
    · exact hbusy hb
    · rw [hostWrite_len, writeWhenIdle_of_busy hb]
    · rw [hostWrite_off, writeWhenIdle_of_busy hb]
  · rintro rfl rfl
    exact hillop
  · rintro rfl rfl
    exact hrsvd
  · rintro rfl rfl
    exact hlenRange

/-- Settles O22, by the turns of a step: reset clears `ERR`, an accepted CLR or RUN clears it, and every other turn
keeps a recorded error. -/
theorem firstErrorIsKept : Obligations.FirstErrorIsKept := by
  refine ⟨fun s c => rfl, fun s off size h => hostRead_of_no_reg (accessedReg_of_bad (by omega)) s,
    fun s t h he hne => ?_⟩
  obtain ⟨-, hstep⟩ | ⟨x, xs, hs, hstep⟩ := step_cases s <;> rw [hstep] at h
  · exact absurd (sequencerTurn_keeps_err h) hne
  · obtain hkeep | ⟨rfl, hnone⟩ | ⟨v, rfl, h⟩ := takeTurn_err_cases h he
    · exact absurd hkeep hne
    · exact ⟨hnone, .inl ⟨xs, hs⟩⟩
    · obtain hkeep | ⟨hnone, hi, rfl | ⟨rfl, hl⟩⟩ := command_err_cases h he
      · exact absurd hkeep hne
      · exact ⟨hnone, .inr (.inl ⟨xs, hs, hi⟩)⟩
      · exact ⟨hnone, .inr (.inr ⟨xs, hs, hi, hl⟩)⟩

end Sys2Proof.Machine
end

section
/-! PROOFS. The encoding, put together (30_encoding.md): decoding undoes encoding, and the opcode table sorts every
word. -/

namespace Sys2Proof

variable {w : Word}

/-- R94, R95: the decoder gives an operation on that operation's command word and on no other. -/
theorem decode_eq_instr_iff {i : Instr} : decode w = .instr i ↔ w = encode i :=
  ⟨Machine.eq_encode_of_decode, fun h => h ▸ decode_encode i⟩

/-- R95, last paragraph: a row of the opcode table fixes the opcode and the reserved bits, and nothing else. -/
theorem wellFormedWord_iff_fields : wellFormedWord w = true ↔ AssignedOpcode w ∧ ReservedBitsZero w := by
  rw [wellFormedWord_iff]
  constructor
  · rintro ⟨i, rfl⟩
    exact ⟨assignedOpcode_encode i, reservedBitsZero_encode i⟩
  · rintro ⟨hopc, hbits⟩
    exact exists_eq_encode hopc hbits

/-! ### The statements -/

/-- Settles O17: what the decoder reads is an operation's command word, and it reads every command word back. -/
theorem decodeIffEncode : Obligations.DecodeIffEncode :=
  fun _ _ => decode_eq_instr_iff

/-- Settles O18: each of the three outcomes of the decoder, by the opcode and the reserved bits of the word. -/
theorem decodeSortsEveryWord : Obligations.DecodeSortsEveryWord := by
  refine fun w => ⟨?_, ?_, ?_⟩
  · simp only [wellFormedWord_iff, decode_eq_instr_iff]
  · rw [decode_eq_illop_iff, ← exists_row_opcode_iff]
    push Not
    rfl
  · rw [decode_eq_rsvd_iff, exists_row_opcode_iff, ← Bool.not_eq_true, wellFormedWord_iff_fields]
    tauto

/-- Settles O19: the operations' command words are the encodings, and the six others have an unassigned opcode or a
reserved bit set. -/
theorem writtenOutWordsDecode : Obligations.WrittenOutWordsDecode := by
  refine ⟨decode_encode .clr, decode_encode .ldchunk, decode_encode .fold, decode_encode .absorb, decode_encode .seed,
    decode_encode (.mix 0), decode_encode (.mix 7), decode_encode .emit, decode_encode .run, ?_⟩
  simp only [decode_eq_illop_iff, decode_eq_rsvd_iff, AssignedOpcode, ReservedBitsZero]
  decide

end Sys2Proof
end

section
/-! PROOFS. What one step can do, said once: an operation that is carried out, a turn that is taken. The facts about
steps below are case splits on these. -/

namespace Sys2Proof.Machine

variable {s t : State}

/-! ### An operation that is carried out -/

/-- What the eight operations do when they are not rejected, in the order of the opcode table (R94). -/
inductive CarriedOut (s : State) : Instr → State → Prop
  | clr : CarriedOut s .clr s.clearCall
  | ldchunk (ws : Quad Word) (hws : chunkLanes s.commandByte s.len.toNat s.off.toNat = some ws) :
      CarriedOut s .ldchunk (s.loadLanes ws)
  | fold : CarriedOut s .fold (s.xorAcc s.lanes)
  | absorb (ws : Quad Word) (hws : chunkLanes s.commandByte s.len.toNat s.off.toNat = some ws) :
      CarriedOut s .absorb (s.absorbLanes ws)
  | seed : CarriedOut s .seed s.takeSeeds
  | mix (k : BitVec 3) : CarriedOut s (.mix k) (s.mixSeed k.toNat)
  | emit : CarriedOut s .emit s.emitDigest
  | run (hl : s.LenFits) : CarriedOut s .run s.startRun

/-- An operation that answers a next state was rejected, or was carried out while IDLE (R95). -/
theorem exec_eq_next {i : Instr} (h : exec i s = .next t) :
    (∃ c, t = s.reject c) ∨ (s.phase = .idle ∧ CarriedOut s i t) := by
  cases i with
  | clr =>
    obtain ⟨-, rfl⟩ | ⟨hi, rfl⟩ := execClr_eq_next h
    · exact .inl ⟨_, rfl⟩
    · exact .inr ⟨hi, .clr⟩
  | ldchunk =>
    obtain ⟨-, rfl⟩ | ⟨-, -, rfl⟩ | ⟨hi, -, ws, hws, rfl⟩ := execLdchunk_eq_next h
    · exact .inl ⟨_, rfl⟩
    · exact .inl ⟨_, rfl⟩
    · exact .inr ⟨hi, .ldchunk ws hws⟩
  | fold =>
    obtain ⟨-, rfl⟩ | ⟨hi, rfl⟩ := execFold_eq_next h
    · exact .inl ⟨_, rfl⟩
    · exact .inr ⟨hi, .fold⟩
  | absorb =>
    obtain ⟨-, rfl⟩ | ⟨-, -, rfl⟩ | ⟨hi, -, ws, hws, rfl⟩ := execAbsorb_eq_next h
    · exact .inl ⟨_, rfl⟩
    · exact .inl ⟨_, rfl⟩
    · exact .inr ⟨hi, .absorb ws hws⟩
  | seed =>
    obtain ⟨-, rfl⟩ | ⟨hi, rfl⟩ := execSeed_eq_next h
    · exact .inl ⟨_, rfl⟩
    · exact .inr ⟨hi, .seed⟩
  | mix k =>
    obtain ⟨-, rfl⟩ | ⟨hi, rfl⟩ := execMix_eq_next h
    · exact .inl ⟨_, rfl⟩
    · exact .inr ⟨hi, .mix k⟩
  | emit =>
    obtain ⟨-, rfl⟩ | ⟨hi, rfl⟩ := execEmit_eq_next h
    · exact .inl ⟨_, rfl⟩
    · exact .inr ⟨hi, .emit⟩
  | run =>
    obtain ⟨-, rfl⟩ | ⟨-, -, rfl⟩ | ⟨hi, hl, rfl⟩ := execRun_eq_next h
    · exact .inl ⟨_, rfl⟩
    · exact .inl ⟨_, rfl⟩
    · exact .inr ⟨hi, .run hl⟩

/-! ### A turn that is taken -/

/-- What a turn can do when it answers a next state (R221). -/
inductive TurnTaken (s : State) : Turn → State → Prop
  | read (off size : Nat) (v : Word) : TurnTaken s (.read off size) (s.answer v)
  | badRead (off size : Nat) : TurnTaken s (.read off size) ((s.reject .access).answer 0)
  | rejectedWrite (off size : Nat) (v : Word) (c : ErrCode) : TurnTaken s (.write off size v) (s.reject c)
  | setLen (v : Word) (hi : s.phase = .idle) : TurnTaken s (.write 0x10 8 v) (s.setLen v)
  | setOff (v : Word) (hi : s.phase = .idle) : TurnTaken s (.write 0x18 8 v) (s.setOff v)
  | command (i : Instr) {t : State} (hi : s.phase = .idle) (h : CarriedOut s i t) :
      TurnTaken s (.write 0x00 8 (encode i)) t
  | store (a : Nat) (bytes : List Byte) (h : bytes.length = 0 ∨ a + bytes.length ≤ s.cfg.lenMax.val) :
      TurnTaken s (.store a bytes) (s.storeBytes a bytes)
  | reset : TurnTaken s .reset s.resetEngine
  | sequencer {t : State} (h : sequencerTurn s = .next t) : TurnTaken s .sequencer t

theorem turnTaken_of_command {w : Word} (h : command w s = .next t) : TurnTaken s (.write 0x00 8 w) t := by
  obtain ⟨-, rfl⟩ | ⟨-, -, rfl⟩ | ⟨-, -, rfl⟩ | ⟨hi, i, hw, hexec⟩ := command_eq_next h
  · exact .rejectedWrite 0x00 8 w .busy
  · exact .rejectedWrite 0x00 8 w .illop
  · exact .rejectedWrite 0x00 8 w .rsvd
  · obtain rfl := eq_encode_of_decode hw
    obtain ⟨c, rfl⟩ | ⟨-, hdone⟩ := exec_eq_next hexec
    · exact .rejectedWrite 0x00 8 _ c
    · exact .command i hi hdone

theorem turnTaken_of_hostWrite {off size : Nat} {v : Word} (h : hostWrite off size v s = .next t) :
    TurnTaken s (.write off size v) t := by
  obtain rfl | ⟨hr, h⟩ | ⟨hr, rfl⟩ | ⟨hr, rfl⟩ := hostWrite_eq_next h
  · exact .rejectedWrite off size v .access
  · obtain ⟨rfl, rfl⟩ := accessedReg_eq_cmd_iff.mp hr
    exact turnTaken_of_command h
  · obtain ⟨rfl, rfl⟩ := accessedReg_eq_len_iff.mp hr
    obtain ⟨-, hw⟩ | ⟨hi, hw⟩ := writeWhenIdle_cases s (s.setLen v) <;> rw [hw]
    · exact .rejectedWrite 0x10 8 v .busy
    · exact .setLen v hi
  · obtain ⟨rfl, rfl⟩ := accessedReg_eq_off_iff.mp hr
    obtain ⟨-, hw⟩ | ⟨hi, hw⟩ := writeWhenIdle_cases s (s.setOff v) <;> rw [hw]
    · exact .rejectedWrite 0x18 8 v .busy
    · exact .setOff v hi

theorem turnTaken_of_hostRead (off size : Nat) (s : State) : TurnTaken s (.read off size) (hostRead off size s) := by
  obtain ⟨r, -, h⟩ | ⟨-, h⟩ := hostRead_cases off size s <;> rw [h]
  · exact .read off size (s.readReg r)
  · exact .badRead off size

/-- Everything a turn can do when it answers a next state. -/
theorem takeTurn_eq_next {x : Turn} (h : takeTurn x s = .next t) : TurnTaken s x t := by
  cases x with
  | read off size =>
    cases h
    exact turnTaken_of_hostRead off size s
  | write off size v => exact turnTaken_of_hostWrite h
  | store a bytes =>
    obtain ⟨hr, rfl⟩ := hostStore_eq_next h
    exact .store a bytes hr
  | reset =>
    cases h
    exact .reset
  | sequencer => exact .sequencer h

/-- Everything a step can do when it answers a next state: the sequencer's turn when the host has no move left, or the
first turn of the schedule. -/
theorem step_eq_next (h : step s = .next t) :
    (s.schedule = [] ∧ sequencerTurn s = .next t) ∨
    (∃ x xs, s.schedule = x :: xs ∧ TurnTaken (s.withSchedule xs) x t) := by
  obtain ⟨hs, hstep⟩ | ⟨x, xs, hs, hstep⟩ := step_cases s <;> rw [hstep] at h
  · exact .inl ⟨hs, h⟩
  · exact .inr ⟨x, xs, hs, takeTurn_eq_next h⟩

/-! ### Nothing is refused -/

theorem whenIdle_not_refused {r : Result} {q : Refusal} (h : r ≠ .refused q) : whenIdle s r ≠ .refused q := by
  by_cases hi : s.phase = .idle
  · rwa [whenIdle_of_idle hi]
  · rw [whenIdle_of_busy hi]
    nofun

theorem whenLenFits_not_refused {r : Result} {q : Refusal} (h : r ≠ .refused q) : whenLenFits s r ≠ .refused q := by
  unfold whenLenFits
  split
  · nofun
  · exact h

/-- No operation is refused: each is rejected, carried out, or stopped at an unwritten byte. -/
theorem exec_not_refused (i : Instr) (s : State) (q : Refusal) : exec i s ≠ .refused q := by
  cases i with
  | ldchunk => exact whenIdle_not_refused (whenLenFits_not_refused withChunk_not_refused)
  | absorb => exact whenIdle_not_refused (whenLenFits_not_refused withChunk_not_refused)
  | run => exact whenIdle_not_refused (whenLenFits_not_refused nofun)
  | clr | fold | seed | mix | emit => exact whenIdle_not_refused nofun

theorem command_not_refused (w : Word) (s : State) (q : Refusal) : command w s ≠ .refused q := by
  unfold command
  split
  · nofun
  · split
    · nofun
    · nofun
    · exact exec_not_refused _ s q

theorem hostWrite_not_refused (off size : Nat) (v : Word) (s : State) (q : Refusal) :
    hostWrite off size v s ≠ .refused q := by
  unfold hostWrite
  split
  · exact command_not_refused v s q
  all_goals nofun

theorem hostStore_not_refused (a : Nat) (bytes : List Byte) (s : State) (q : Refusal) :
    hostStore a bytes s ≠ .refused q := by
  unfold hostStore
  split <;> nofun

/-- U10: the sequencer's turn has a meaning wherever `K` is at most 8. -/
theorem sequencerTurn_not_refused (hk : s.k.toNat ≤ 8) (q : Refusal) : sequencerTurn s ≠ .refused q := by
  cases hp : s.phase with
  | idle => simp [sequencerTurn, hp]
  | fold =>
    by_cases ho : s.off.toNat < s.len.toNat
    · rw [sequencerTurn_of_fold_lt hp ho]
      exact withChunk_not_refused
    · rw [sequencerTurn_of_fold_le hp (Nat.not_lt.mp ho)]
      nofun
  | seed =>
    rw [sequencerTurn_of_seed hp]
    nofun
  | mix =>
    by_cases hlow : s.k.toNat < 8
    · rw [sequencerTurn_of_mix_lt hp hlow]
      nofun
    · rw [sequencerTurn_of_mix_eq hp (BitVec.eq_of_toNat_eq (Nat.le_antisymm hk (Nat.not_lt.mp hlow)))]
      nofun
  | emit =>
    rw [sequencerTurn_of_emit hp]
    nofun

/-- U10: the mix step is the only turn that can be refused. -/
theorem takeTurn_not_refused (hk : s.k.toNat ≤ 8) (x : Turn) (q : Refusal) : takeTurn x s ≠ .refused q := by
  cases x with
  | read off size => exact nofun
  | write off size v => exact hostWrite_not_refused off size v s q
  | store a bytes => exact hostStore_not_refused a bytes s q
  | reset => exact nofun
  | sequencer => exact sequencerTurn_not_refused hk q

end Sys2Proof.Machine
end

section
/-! PROOFS. The invariant of the machine (10_state.md section 3, 45_run.md section 3): it holds after reset, and every
named update, operation and turn keeps it. -/

namespace Sys2Proof.Machine

variable {s t : State}

/-! ### The updates that the invariant does not see -/

theorem State.Inv.withSchedule (h : s.Inv) (ts : List Turn) : (s.withSchedule ts).Inv := { h with }

theorem State.Inv.answer (h : s.Inv) (v : Word) : (s.answer v).Inv := { h with }

theorem State.Inv.reject (h : s.Inv) (c : ErrCode) : (s.reject c).Inv := { h with }

theorem State.Inv.loadLanes (h : s.Inv) (ws : Quad Word) : (s.loadLanes ws).Inv := { h with }

theorem State.Inv.xorAcc (h : s.Inv) (ws : Quad Word) : (s.xorAcc ws).Inv := { h with }

theorem State.Inv.takeSeeds (h : s.Inv) : s.takeSeeds.Inv := { h with }

/-! ### The states of an IDLE engine -/

/-- While IDLE the invariant speaks of the input memory, `K`, the digest registers and the drawn choices only. -/
theorem State.Inv.of_idle (hi : s.phase = .idle) (hwf : s.input.wf) (hrange : ∀ c ∈ s.input, c.1 < s.cfg.lenMax.val)
    (hk : s.k.toNat ≤ 8) (hdig : s.dvalid = false → s.dig = zeroBytes32) (hdrawn : ∀ r ∈ s.races, r.draw < s.draws) :
    s.Inv where
  inputWf := hwf
  inputInRange := hrange
  kAtMostEight := hk
  busyLenFits := fun hb => absurd hi hb
  foldOff := fun hp => by simp [hi] at hp
  passedOff := fun hp => by simp [hi] at hp
  emitK := fun hp => by simp [hi] at hp
  busyNotValid := fun hb => absurd hi hb
  notValidZero := hdig
  racesBelowLen := fun hb => absurd hi hb
  racesDrawn := hdrawn

theorem State.Inv.setLen (h : s.Inv) (hi : s.phase = .idle) (v : Word) : (s.setLen v).Inv :=
  .of_idle hi h.inputWf h.inputInRange h.kAtMostEight h.notValidZero h.racesDrawn

theorem State.Inv.setOff (h : s.Inv) (hi : s.phase = .idle) (v : Word) : (s.setOff v).Inv :=
  .of_idle hi h.inputWf h.inputInRange h.kAtMostEight h.notValidZero h.racesDrawn

theorem State.Inv.clearCall (h : s.Inv) (hi : s.phase = .idle) : s.clearCall.Inv :=
  .of_idle hi h.inputWf h.inputInRange (Nat.zero_le 8) (fun _ => rfl) h.racesDrawn

theorem State.Inv.absorbLanes_of_idle (h : s.Inv) (hi : s.phase = .idle) (ws : Quad Word) : (s.absorbLanes ws).Inv :=
  .of_idle hi h.inputWf h.inputInRange h.kAtMostEight h.notValidZero h.racesDrawn

theorem State.Inv.emitDigest (h : s.Inv) (hi : s.phase = .idle) : s.emitDigest.Inv :=
  .of_idle hi h.inputWf h.inputInRange h.kAtMostEight (fun hv => by cases hv) h.racesDrawn

theorem State.Inv.resetEngine (h : s.Inv) : s.resetEngine.Inv :=
  .of_idle rfl h.inputWf h.inputInRange (Nat.zero_le 8) (fun _ => rfl) (fun _ hr => by cases hr)

theorem State.Inv.startRun (h : s.Inv) (hl : s.LenFits) : s.startRun.Inv where
  inputWf := h.inputWf
  inputInRange := h.inputInRange
  kAtMostEight := Nat.zero_le 8
  busyLenFits := fun _ => hl
  foldOff := fun _ => ⟨rfl, Nat.zero_le _⟩
  passedOff := fun hp => by simp at hp
  emitK := fun hp => by simp at hp
  busyNotValid := fun _ => rfl
  notValidZero := fun _ => rfl
  racesBelowLen := fun _ _ hr => by cases hr
  racesDrawn := fun _ hr => by cases hr

/-- An operation that is carried out keeps the invariant. -/
theorem State.Inv.carriedOut {i : Instr} (h : s.Inv) (hi : s.phase = .idle) (hdone : CarriedOut s i t) : t.Inv := by
  cases hdone with
  | clr => exact h.clearCall hi
  | ldchunk ws _ => exact h.loadLanes ws
  | fold => exact h.xorAcc s.lanes
  | absorb ws _ => exact h.absorbLanes_of_idle hi ws
  | seed => exact h.takeSeeds
  | mix k => exact h.xorAcc _
  | emit => exact h.emitDigest hi
  | run hl => exact h.startRun hl

/-! ### A RUN in progress -/

/-- R7, R174: `LEN <= LEN_MAX <= 2^64 - 33`, so `OFF` moves past a chunk below `LEN` without wrapping. -/
theorem State.toNat_off_add_chunk (hl : s.LenFits) (ho : s.off.toNat < s.len.toNat) :
    (s.off + 32).toNat = s.off.toNat + 32 := by
  have hfit : s.len.toNat ≤ s.cfg.lenMax.val := hl
  have hmax : s.cfg.lenMax.val < 18446744073709551584 := s.cfg.lenMax.isLt
  rw [BitVec.toNat_add, Nat.mod_eq_of_lt]
  · rfl
  · rw [show (32 : Word).toNat = 32 from rfl]
    omega

/-- R178: a fold step moves `OFF` from one chunk to the next. -/
theorem State.Inv.absorbLanes_of_fold (h : s.Inv) (hp : s.phase = .fold) (ho : s.off.toNat < s.len.toNat)
    (ws : Quad Word) : (s.absorbLanes ws).Inv :=
  { h with
    foldOff := fun _ => by
      obtain ⟨hmul, -⟩ := h.foldOff hp
      rw [State.absorbLanes_off, State.absorbLanes_len, State.toNat_off_add_chunk (h.busyLenFits (by simp [hp])) ho]
      omega
    passedOff := fun hq => by simp [hp] at hq }

/-- R174: the fold phase ends with `OFF` just past the last chunk. -/
theorem State.Inv.enter_seed (h : s.Inv) (hp : s.phase = .fold) (ho : s.len.toNat ≤ s.off.toNat) :
    (s.enter .seed).Inv :=
  have hbusy : s.phase ≠ .idle := by simp [hp]
  { h with
    busyLenFits := fun _ => h.busyLenFits hbusy
    foldOff := fun hq => by cases hq
    passedOff := fun _ => by
      obtain ⟨hmul, hlast⟩ := h.foldOff hp
      simp only [State.enter_off, State.enter_len, chunkCount]
      omega
    emitK := fun hq => by cases hq
    busyNotValid := fun _ => h.busyNotValid hbusy
    racesBelowLen := fun _ => h.racesBelowLen hbusy }

/-- R175. -/
theorem State.Inv.enter_mix (h : s.Inv) (hp : s.phase = .seed) : ((s.takeSeeds.setK 0).enter .mix).Inv :=
  have hbusy : s.phase ≠ .idle := by simp [hp]
  { h with
    kAtMostEight := Nat.zero_le 8
    busyLenFits := fun _ => h.busyLenFits hbusy
    foldOff := fun hq => by cases hq
    passedOff := fun _ => h.passedOff (.inl hp)
    emitK := fun hq => by cases hq
    busyNotValid := fun _ => h.busyNotValid hbusy
    racesBelowLen := fun _ => h.racesBelowLen hbusy }

/-- R176: a mixing iteration counts `K` up to 8 at most. -/
theorem State.toNat_k_add_one (hk : s.k.toNat < 8) : (s.k + 1).toNat = s.k.toNat + 1 := by
  rw [BitVec.toNat_add, show (1 : BitVec 4).toNat = 1 from rfl]
  omega

theorem State.Inv.mixStep (h : s.Inv) (hp : s.phase = .mix) (hk : s.k.toNat < 8) :
    ((s.mixSeed s.k.toNat).setK (s.k + 1)).Inv :=
  { h with
    kAtMostEight := by
      rw [State.setK_k, State.toNat_k_add_one hk]
      exact hk
    emitK := fun hq => by simp [hp] at hq }

theorem State.Inv.enter_emit (h : s.Inv) (hp : s.phase = .mix) (hk : s.k = 8) : (s.enter .emit).Inv :=
  have hbusy : s.phase ≠ .idle := by simp [hp]
  { h with
    busyLenFits := fun _ => h.busyLenFits hbusy
    foldOff := fun hq => by cases hq
    passedOff := fun _ => h.passedOff (.inr (.inl hp))
    emitK := fun _ => hk
    busyNotValid := fun _ => h.busyNotValid hbusy
    racesBelowLen := fun _ => h.racesBelowLen hbusy }

/-- R177, R215: the emit step leaves a valid digest, and a draw of free digest words keeps the drawn choices drawn. -/
theorem State.Inv.emitStep (h : s.Inv) : (s.settleRaces.emitDigest.enter .idle).Inv := by
  refine .of_idle rfl ?_ ?_ ?_ (fun hv => by cases hv) fun r hr => ?_
  · simpa using h.inputWf
  · simpa using h.inputInRange
  · simpa using h.kAtMostEight
  · exact Nat.lt_of_lt_of_le (h.racesDrawn r (by simpa using hr)) s.le_settleRaces_draws

theorem State.Inv.sequencerTurn (h : s.Inv) (hstep : sequencerTurn s = .next t) : t.Inv := by
  obtain ⟨-, rfl⟩ | ⟨hp, ho, ws, -, rfl⟩ | ⟨hp, ho, rfl⟩ | ⟨hp, rfl⟩ | ⟨hp, hk, rfl⟩ | ⟨hp, hk, rfl⟩ | ⟨-, rfl⟩ :=
    sequencerTurn_eq_next hstep
  · exact h
  · exact h.absorbLanes_of_fold hp ho ws
  · exact h.enter_seed hp ho
  · exact h.enter_mix hp
  · exact h.mixStep hp hk
  · exact h.enter_emit hp hk
  · exact h.emitStep

/-! ### The host's stores -/

/-- R215: a store of one byte draws a free choice at most. -/
theorem State.le_storeByte_draws (s : State) (a : Nat) (v : Byte) : s.draws ≤ (s.storeByte a v).draws := by
  rw [State.storeByte_draws]
  split
  · exact Nat.le_succ _
  · exact Nat.le_refl _

theorem State.le_storeBytes_draws (vs : List Byte) (s : State) (a : Nat) : s.draws ≤ (s.storeBytes a vs).draws := by
  induction vs generalizing s a with
  | nil => exact Nat.le_refl _
  | cons v vs ih => exact (s.le_storeByte_draws a v).trans (ih (s.storeByte a v) (a + 1))

/-- R60, R215: a store below `LEN_MAX` keeps the invariant, in whatever phase. -/
theorem State.Inv.storeBytes (h : s.Inv) {a : Nat} {bytes : List Byte}
    (hr : bytes.length = 0 ∨ a + bytes.length ≤ s.cfg.lenMax.val) : (s.storeBytes a bytes).Inv := by
  obtain ⟨-, -, -, hdig, hdvalid, hlen, hoff, hk, hphase, -, hcfg, -, -⟩ := State.storeBytes_same bytes s a
  constructor
  case inputWf => exact State.storeBytes_wf bytes h.inputWf a
  case inputInRange =>
    intro c hc
    rw [hcfg]
    obtain ⟨hlow, hhigh⟩ | hc := State.mem_storeBytes hc
    · omega
    · exact h.inputInRange c hc
  case kAtMostEight => exact hk ▸ h.kAtMostEight
  case busyLenFits => simpa only [State.LenFits, hphase, hlen, hcfg] using h.busyLenFits
  case foldOff => simpa only [hphase, hlen, hoff] using h.foldOff
  case passedOff => simpa only [hphase, hlen, hoff] using h.passedOff
  case emitK => simpa only [hphase, hk] using h.emitK
  case busyNotValid => simpa only [hphase, hdvalid] using h.busyNotValid
  case notValidZero => simpa only [hdvalid, hdig] using h.notValidZero
  case racesBelowLen =>
    rw [hphase, hlen]
    intro hb r hr
    obtain ⟨-, hlow, -⟩ | hr := State.races_storeBytes hr
    · exact hlow
    · exact h.racesBelowLen hb r hr
  case racesDrawn =>
    intro r hr
    obtain ⟨-, -, -, -, hdrawn⟩ | hr := State.races_storeBytes hr
    · exact hdrawn
    · exact Nat.lt_of_lt_of_le (h.racesDrawn r hr) (State.le_storeBytes_draws bytes s a)

/-! ### Turns and steps -/

theorem State.Inv.turnTaken {x : Turn} (h : s.Inv) (hx : TurnTaken s x t) : t.Inv := by
  cases hx with
  | read off size v => exact h.answer v
  | badRead off size => exact (h.reject .access).answer 0
  | rejectedWrite off size v c => exact h.reject c
  | setLen v hi => exact h.setLen hi v
  | setOff v hi => exact h.setOff hi v
  | command i hi hdone => exact h.carriedOut hi hdone
  | store a bytes hr => exact h.storeBytes hr
  | reset => exact h.resetEngine
  | sequencer hstep => exact h.sequencerTurn hstep

/-! ### The statements -/

/-- Settles O43: an engine that nothing has happened to is IDLE, with nothing written and nothing drawn. -/
theorem invariantHoldsAtReset : Obligations.InvariantHoldsAtReset :=
  fun _ => .of_idle rfl Memory.wf_nil (fun _ hc => by cases hc) (Nat.zero_le 8) (fun _ => rfl) (fun _ hr => by cases hr)

/-- Settles O44, by the turn that the step takes. -/
theorem stepKeepsInvariant : Obligations.StepKeepsInvariant := by
  intro s t h hstep
  obtain ⟨-, hseq⟩ | ⟨x, xs, -, hx⟩ := step_eq_next hstep
  · exact h.sequencerTurn hseq
  · exact (h.withSchedule xs).turnTaken hx

/-- Settles O45: the invariant bounds `K` by 8, and only a mix step beyond that is refused. -/
theorem invariantStatesAreNeverRefused : Obligations.InvariantStatesAreNeverRefused := by
  intro s h r
  obtain ⟨-, hstep⟩ | ⟨x, xs, -, hstep⟩ := step_cases s <;> rw [hstep]
  · exact sequencerTurn_not_refused h.kAtMostEight r
  · exact takeTurn_not_refused (s := s.withSchedule xs) h.kAtMostEight x r

end Sys2Proof.Machine
end

section
/-! PROOFS. The pure function (41_fold.md section 3, 44_emit.md): the exclusive OR of groups, the fold of a byte
sequence, and what the mixing rounds make of zero. -/

namespace Sys2Proof.Machine

/-! ### The exclusive OR of four words -/

theorem quadXor_comm (p q : Quad Word) : quadXor p q = quadXor q p := by
  simp only [quadXor, BitVec.xor_comm]

theorem quadXor_assoc (p q r : Quad Word) : quadXor (quadXor p q) r = quadXor p (quadXor q r) := by
  simp only [quadXor, BitVec.xor_assoc]

theorem quadXor_right_comm (p q r : Quad Word) : quadXor (quadXor p q) r = quadXor (quadXor p r) q := by
  rw [quadXor_assoc, quadXor_comm q r, quadXor_assoc]

theorem quadXor_left_comm (p q r : Quad Word) : quadXor p (quadXor q r) = quadXor q (quadXor p r) := by
  rw [← quadXor_assoc, quadXor_comm p q, quadXor_assoc]

@[simp] theorem quadXor_zero (p : Quad Word) : quadXor p (quadOf 0) = p := by
  simp [quadXor, quadOf]

@[simp] theorem quadXor_self (p : Quad Word) : quadXor p p = quadOf 0 := by
  simp [quadXor, quadOf]

/-- Two equal terms cancel. -/
@[simp] theorem quadXor_quadXor_self (p q : Quad Word) : quadXor (quadXor p q) q = p := by
  rw [quadXor_assoc, quadXor_self, quadXor_zero]

@[simp] theorem quadGet_quadXor (p q : Quad Word) (n : Nat) :
    quadGet (quadXor p q) n = quadGet p n ^^^ quadGet q n := by
  unfold quadGet
  split <;> rfl

/-! ### The bytes of four words -/

/-- Thirty-two consecutive bytes, one by one. -/
theorem byteOf_bytes32At (f : Nat → Byte) (o : Nat) {n : Nat} (hn : n < 32) : byteOf (bytes32At f o) n = f (o + n) := by
  interval_cases n <;> rfl

/-- R111: byte `n` of the lanes of a chunk is byte `n` of the chunk. -/
theorem byteOf_digestBytes_lanesAt (f : Nat → Byte) (o : Nat) {n : Nat} (hn : n < 32) :
    byteOf (digestBytes (lanesAt f o)) n = f (o + n) := by
  rw [byteOf_digestBytes, lanesAt, quadGet_quadMap, extractLsb'_le64 _ (Nat.mod_lt n (by decide)),
    ← byteOf_bytes32At f o hn, byteOf]

theorem byteOf_digestBytes_quadXor (p q : Quad Word) (n : Nat) :
    byteOf (digestBytes (quadXor p q)) n = byteOf (digestBytes p) n ^^^ byteOf (digestBytes q) n := by
  simp only [byteOf_digestBytes, quadGet_quadXor, BitVec.extractLsb'_xor]

theorem le64_xor (o p : Octet) :
    le64 ⟨o.b0 ^^^ p.b0, o.b1 ^^^ p.b1, o.b2 ^^^ p.b2, o.b3 ^^^ p.b3, o.b4 ^^^ p.b4, o.b5 ^^^ p.b5, o.b6 ^^^ p.b6,
      o.b7 ^^^ p.b7⟩ = le64 o ^^^ le64 p := by
  simp only [le64, ← BitVec.xor_append]

/-- R124: the lanes of a chunk are linear in its bytes. -/
theorem lanesAt_xor (f g : Nat → Byte) (o : Nat) :
    lanesAt (fun a => f a ^^^ g a) o = quadXor (lanesAt f o) (lanesAt g o) := by
  simp only [lanesAt, quadMap, quadXor, ← le64_xor]
  rfl

theorem lanesAt_zero (o : Nat) : lanesAt (fun _ => 0) o = quadOf 0 := by
  simp [lanesAt, quadMap, bytes32At, octetAt, le64, quadOf]

/-! ### The fold of the first chunks -/

/-- The fold of the first `n` chunks depends on their bytes only. -/
theorem foldChunks_congr {f g : Nat → Byte} {n : Nat} (h : ∀ a, a < 32 * n → f a = g a) :
    foldChunks f n = foldChunks g n := by
  induction n with
  | zero => rfl
  | succ n ih =>
    have hlast : lanesAt f (32 * n) = lanesAt g (32 * n) := lanesAt_congr fun i hi => h _ (by omega)
    rw [foldChunks, foldChunks, hlast, ih fun a ha => h a (by omega)]

/-- R124: the chunks from chunk `m` on are folded as a sequence of their own. -/
theorem foldChunks_add (f : Nat → Byte) (m n : Nat) :
    foldChunks f (m + n) = quadXor (foldChunks f m) (foldChunks (fun a => f (32 * m + a)) n) := by
  induction n with
  | zero => exact (quadXor_zero _).symm
  | succ n ih =>
    have hlast : lanesAt f (32 * (m + n)) = lanesAt (fun a => f (32 * m + a)) (32 * n) := by
      simp only [lanesAt, bytes32At, octetAt, Nat.mul_add, Nat.add_assoc]
    rw [← Nat.add_assoc, foldChunks, ih, foldChunks, hlast, quadXor_assoc]

theorem foldChunks_zero (n : Nat) : foldChunks (fun _ => 0) n = quadOf 0 := by
  induction n with
  | zero => rfl
  | succ n ih => rw [foldChunks, ih, lanesAt_zero, quadXor_zero]

/-- R124: chunks of zeros fold to nothing. -/
theorem foldChunks_of_zeros_beyond {f : Nat → Byte} {m : Nat} (h : ∀ a, 32 * m ≤ a → f a = 0) (n : Nat) :
    foldChunks f (m + n) = foldChunks f m := by
  have hzeros : foldChunks (fun a => f (32 * m + a)) n = quadOf 0 :=
    (foldChunks_congr fun a _ => h _ (Nat.le_add_right _ a)).trans (foldChunks_zero n)
  rw [foldChunks_add, hzeros, quadXor_zero]

/-- R124: the fold is linear in the bytes. -/
theorem foldChunks_xor (f g : Nat → Byte) (n : Nat) :
    foldChunks (fun a => f a ^^^ g a) n = quadXor (foldChunks f n) (foldChunks g n) := by
  induction n with
  | zero => exact (quadXor_self _).symm
  | succ n ih =>
    rw [foldChunks, ih, lanesAt_xor, foldChunks, foldChunks]
    simp only [quadXor_assoc, quadXor_left_comm (foldChunks g n)]

/-- R124: changing byte `i` changes byte `i mod 32` of the fold and no other. -/
theorem byteOf_foldChunks_update (f : Nat → Byte) (i : Nat) (v : Byte) {m n : Nat} (hi : i < 32 * m) (hn : n < 32) :
    byteOf (digestBytes (foldChunks (Function.update f i v) m)) n =
      if n = i % 32 then byteOf (digestBytes (foldChunks f m)) n ^^^ f i ^^^ v
      else byteOf (digestBytes (foldChunks f m)) n := by
  induction m with
  | zero => omega
  | succ m ih =>
    simp only [foldChunks, byteOf_digestBytes_quadXor, byteOf_digestBytes_lanesAt _ _ hn]
    by_cases hlast : 32 * m ≤ i
    · have hbefore : foldChunks (Function.update f i v) m = foldChunks f m :=
        foldChunks_congr fun a ha => Function.update_of_ne (Nat.ne_of_lt (Nat.lt_of_lt_of_le ha hlast)) v f
      rw [hbefore]
      by_cases hbyte : n = i % 32
      · obtain rfl : 32 * m + n = i := by omega
        rw [if_pos hbyte, Function.update_self]
        simp
      · rw [if_neg hbyte, Function.update_of_ne (by omega)]
    · rw [ih (Nat.not_le.mp hlast), Function.update_of_ne (by omega)]
      split
      · ac_rfl
      · rfl

/-! ### `FOLDSTATE` -/

variable {x y : List Byte}

theorem zeroExtended_of_le {a : Nat} (h : x.length ≤ a) : zeroExtended x a = 0 :=
  List.getD_eq_default x 0 h

theorem le_mul_chunkCount (n : Nat) : n ≤ 32 * chunkCount n := by
  unfold chunkCount
  omega

/-- R63: any number of chunks that covers the input folds to its folded state. -/
theorem foldState_eq_foldChunks {n : Nat} (h : chunkCount x.length ≤ n) : foldState x = foldChunks (zeroExtended x) n := by
  obtain ⟨k, rfl⟩ := Nat.exists_eq_add_of_le h
  exact (foldChunks_of_zeros_beyond (fun a ha => zeroExtended_of_le ((le_mul_chunkCount _).trans ha)) k).symm

theorem zeroExtended_append_zeros (x : List Byte) (n : Nat) :
    zeroExtended (x ++ List.replicate n 0) = zeroExtended x := by
  funext a
  simp only [zeroExtended, List.getD_eq_getElem?_getD, List.getElem?_append, List.getElem?_replicate]
  grind

theorem foldState_append_zeros (x : List Byte) (n : Nat) : foldState (x ++ List.replicate n 0) = foldState x := by
  have hcount : chunkCount x.length ≤ chunkCount (x ++ List.replicate n 0).length := by
    rw [List.length_append]
    unfold chunkCount
    omega
  rw [foldState, zeroExtended_append_zeros, foldState_eq_foldChunks hcount]

/-- R124: after whole chunks the rest of the input is folded as an input of its own. -/
theorem foldState_append {m : Nat} (hx : x.length = 32 * m) : foldState (x ++ y) = quadXor (foldState x) (foldState y) := by
  have hcount : chunkCount (x ++ y).length = m + chunkCount y.length := by
    rw [List.length_append, hx]
    unfold chunkCount
    omega
  have hx' : chunkCount x.length ≤ m := by
    rw [hx]
    unfold chunkCount
    omega
  have hfront : foldChunks (zeroExtended (x ++ y)) m = foldState x := by
    rw [foldState_eq_foldChunks hx']
    exact foldChunks_congr fun a ha => List.getD_append x y 0 a (hx ▸ ha)
  have hrest : (fun a => zeroExtended (x ++ y) (32 * m + a)) = zeroExtended y := by
    funext a
    rw [zeroExtended, List.getD_append_right x y 0 _ (hx ▸ Nat.le_add_right _ a), hx, Nat.add_sub_cancel_left]
    rfl
  rw [foldState, hcount, foldChunks_add, hfront, hrest]
  rfl

@[simp] theorem foldState_nil : foldState [] = quadOf 0 := rfl

/-- R124: the folded state of a sequence of whole chunks is the exclusive OR of theirs. -/
theorem foldState_flatten {cs : List (List Byte)} (h : ∀ c ∈ cs, c.length = 32) :
    foldState cs.flatten = cs.foldr (fun c q => quadXor (foldState c) q) (quadOf 0) := by
  induction cs with
  | nil => rfl
  | cons c cs ih =>
    obtain ⟨hc, hcs⟩ := List.forall_mem_cons.mp h
    rw [List.flatten_cons, foldState_append (m := 1) hc, ih hcs, List.foldr_cons]

/-! ### The mixing rounds on zero -/

/-- R163: the eight seeds of zero are one seed, so its mix words are folded in eight times and cancel. -/
theorem mixRounds_zero (g : Generator) : mixRounds g (quadOf 0) 8 = quadOf 0 := by
  have hseed : ∀ n, seedGet (seedsOf (quadOf 0)) n = 0 := fun n => by
    unfold seedGet
    split <;> rfl
  simp only [mixRounds, hseed, quadXor_quadXor_self]

/-! ### The statements -/

/-- Settles O56: the mixing rounds leave zero as it is, and the empty input folds to zero. -/
theorem zeroFoldGivesZeroDigest : Obligations.ZeroFoldGivesZeroDigest := by
  have hzero : ∀ (g : Generator) (x : List Byte), foldState x = quadOf 0 → digest g x = zeroBytes32 := fun g x hx => by
    rw [digest, hx, mixRounds_zero]
    rfl
  exact ⟨hzero, fun g => hzero g [] rfl⟩

/-- Settles O57: the zero-extended byte sequences are the same, and the chunks beyond the input fold to nothing. -/
theorem trailingZerosAreInvisible : Obligations.TrailingZerosAreInvisible := by
  refine fun g x n => ⟨foldState_append_zeros x n, ?_⟩
  rw [digest, foldState_append_zeros, digest]

/-- Settles O58: the folded state of whole chunks is an exclusive OR over the chunks, which commutes and cancels. -/
theorem chunkOrderIsIrrelevant : Obligations.ChunkOrderIsIrrelevant := by
  refine ⟨fun cs ds hcs hperm => ?_, fun c hc => ?_⟩
  · have hcomm : LeftCommutative fun (c : List Byte) q => quadXor (foldState c) q :=
      ⟨fun c d q => quadXor_left_comm (foldState c) (foldState d) q⟩
    rw [foldState_flatten hcs, foldState_flatten fun d hd => hcs d (hperm.mem_iff.mpr hd)]
    exact hperm.foldr_eq (quadOf 0)
  · rw [foldState_append (m := 1) hc, quadXor_self]

/-- Settles O59: the fold of the first chunks is linear in the bytes, and equal lengths have equally many chunks. -/
theorem foldIsLinear : Obligations.FoldIsLinear := by
  intro x y hlen
  have hbytes : zeroExtended (List.zipWith (fun a b => a ^^^ b) x y) = fun a => zeroExtended x a ^^^ zeroExtended y a := by
    funext a
    by_cases ha : a < x.length
    · simp [zeroExtended, ha, hlen ▸ ha]
    · have hx := Nat.not_lt.mp ha
      have hy : y.length ≤ a := hlen ▸ hx
      rw [zeroExtended_of_le hx, zeroExtended_of_le hy, zeroExtended_of_le (by simp [hx])]
      rfl
  rw [foldState, hbytes, List.length_zipWith, hlen, Nat.min_self, foldChunks_xor, foldState, foldState, hlen]

/-- Settles O60: the input with byte `i` replaced is the byte sequence updated at `i`. -/
theorem inputByteReachesOneByte : Obligations.InputByteReachesOneByte := by
  intro x i v hi n hn
  have hbytes : zeroExtended (x.set i v) = Function.update (zeroExtended x) i v := by
    funext a
    by_cases ha : a = i
    · subst ha
      simp [zeroExtended, hi]
    · simp [zeroExtended, ha, Ne.symm ha]
  rw [foldState, hbytes, List.length_set]
  exact byteOf_foldChunks_update _ i v (Nat.lt_of_lt_of_le hi (le_mul_chunkCount _)) hn

end Sys2Proof.Machine
end

section
/-! PROOFS. The progress of a RUN (45_run.md sections 1 and 3): the input of a call as the loader sees it, and every step
of a RUN whose input the host leaves alone keeps it on the way to the digest. -/

namespace Sys2Proof.Machine

variable {s t : State}

/-! ### The input of a call -/

@[simp] theorem State.length_inputBytes (s : State) : s.inputBytes.length = s.len.toNat := by
  simp [State.inputBytes]

/-- R63: the padded view is the input of the call, extended by zeros. -/
theorem State.zeroExtended_inputBytes (s : State) : zeroExtended s.inputBytes = s.pb := by
  funext a
  by_cases ha : a < s.len.toNat
  · simp [zeroExtended, State.inputBytes, State.pb, ha]
  · rw [zeroExtended_of_le (by simpa using ha), State.pb, if_neg ha]

theorem State.inputBytes_congr (hlen : t.len = s.len) (h : ∀ a, a < s.len.toNat → t.input.read a = s.input.read a) :
    t.inputBytes = s.inputBytes := by
  rw [State.inputBytes, State.inputBytes, hlen]
  exact List.map_congr_left fun a ha => by rw [h a (List.mem_range.mp ha)]

/-- R123: the folded state of the input is the fold of its chunks in the padded view. -/
theorem State.foldState_inputBytes (s : State) :
    foldState s.inputBytes = foldChunks (zeroExtended s.inputBytes) (chunkCount s.len.toNat) := by
  rw [foldState, State.length_inputBytes]

/-- R111: without races the lanes a RUN loads are those of the input of the call. -/
theorem State.lanes_of_no_races {ws : Quad Word} (hr : s.races = [])
    (h : chunkLanes s.runByte s.len.toNat s.off.toNat = some ws) :
    ws = lanesAt (zeroExtended s.inputBytes) s.off.toNat := by
  rw [State.runByte_of_no_races hr] at h
  rw [State.zeroExtended_inputBytes]
  exact lanes_of_chunkLanes h

/-! ### The updates that leave a RUN where it is -/

theorem State.RunProgress.withSchedule (h : s.RunProgress) (ts : List Turn) : (s.withSchedule ts).RunProgress :=
  { h with }

theorem State.RunProgress.answer (h : s.RunProgress) (v : Word) : (s.answer v).RunProgress := { h with }

theorem State.RunProgress.reject (h : s.RunProgress) (c : ErrCode) : (s.reject c).RunProgress := { h with }

/-- While IDLE there is no RUN to speak of. -/
theorem State.RunProgress.of_idle (hi : s.phase = .idle) : s.RunProgress := by
  constructor <;> intro hp
  case lenFits | noRace => exact absurd hi hp
  all_goals simp [hi] at hp

/-- R215: a store above the input of the RUN leaves its progress as it is. -/
theorem State.RunProgress.storeBytes (h : s.RunProgress) {a : Nat} (bytes : List Byte)
    (ha : s.phase ≠ .idle → s.len.toNat ≤ a) : (s.storeBytes a bytes).RunProgress := by
  obtain ⟨hacc, -, hseeds, -, -, hlen, hoff, hk, hphase, -, hcfg, -, -⟩ := State.storeBytes_same bytes s a
  by_cases hi : s.phase = .idle
  · exact .of_idle (hphase.trans hi)
  · have hinput : (s.storeBytes a bytes).inputBytes = s.inputBytes := State.inputBytes_congr hlen fun b hb => by
      have := ha hi
      rw [State.storeBytes_read, if_neg (by omega)]
    obtain ⟨hraces, -⟩ := State.storeBytes_no_race bytes (.inr (ha hi))
    constructor
    case lenFits => simpa only [State.LenFits, hphase, hlen, hcfg] using h.lenFits
    case noRace => simpa only [hphase, hraces] using h.noRace
    case folding => simpa only [hphase, hoff, hlen, hacc, hinput] using h.folding
    case folded => simpa only [hphase, hacc, hinput] using h.folded
    case mixing => simpa only [hphase, hk, hseeds, hacc, hcfg, hinput] using h.mixing
    case mixed => simpa only [hphase, hacc, hcfg, hinput] using h.mixed

/-! ### The stages of a RUN -/

/-- R172: an accepted RUN has folded nothing. -/
theorem State.RunProgress.startRun (hl : s.LenFits) : s.startRun.RunProgress where
  lenFits := fun _ => hl
  noRace := fun _ => rfl
  folding := fun _ => ⟨0, rfl, Nat.zero_le _, rfl⟩
  folded := fun hp => by cases hp
  mixing := fun hp => by cases hp
  mixed := fun hp => by cases hp

theorem State.RunProgress.carriedOut {i : Instr} (hi : s.phase = .idle) (hdone : CarriedOut s i t) : t.RunProgress := by
  cases hdone with
  | run hl => exact .startRun hl
  | clr | ldchunk | fold | absorb | seed | mix | emit => exact .of_idle hi

/-- R174: a fold step folds the next chunk of the input. -/
theorem State.RunProgress.absorbLanes (h : s.RunProgress) (hp : s.phase = .fold) (ho : s.off.toNat < s.len.toNat)
    {ws : Quad Word} (hws : chunkLanes s.runByte s.len.toNat s.off.toNat = some ws) : (s.absorbLanes ws).RunProgress := by
  have hbusy : s.phase ≠ .idle := by simp [hp]
  obtain ⟨n, hoff, -, hacc⟩ := h.folding hp
  have hlanes := State.lanes_of_no_races (h.noRace hbusy) hws
  refine { h with folding := fun _ => ⟨n + 1, ?_, ?_, ?_⟩, folded := ?_, mixing := ?_, mixed := ?_ }
  · rw [State.absorbLanes_off, State.toNat_off_add_chunk (h.lenFits hbusy) ho, hoff, Nat.mul_succ]
  · rw [State.absorbLanes_len, chunkCount]
    omega
  · rw [State.absorbLanes_acc, hacc, hlanes, hoff]
    rfl
  all_goals
    intro hq
    simp [hp] at hq

/-- R174: past the last chunk the accumulators hold the folded state. -/
theorem State.RunProgress.enter_seed (h : s.RunProgress) (hp : s.phase = .fold) (ho : s.len.toNat ≤ s.off.toNat) :
    (s.enter .seed).RunProgress := by
  have hbusy : s.phase ≠ .idle := by simp [hp]
  obtain ⟨n, hoff, hn, hacc⟩ := h.folding hp
  have hlast : n = chunkCount s.len.toNat := by
    unfold chunkCount at hn ⊢
    omega
  exact
  { lenFits := fun _ => h.lenFits hbusy
    noRace := fun _ => h.noRace hbusy
    folding := fun hq => by cases hq
    folded := fun _ => hacc.trans (hlast ▸ s.foldState_inputBytes.symm)
    mixing := fun hq => by cases hq
    mixed := fun hq => by cases hq }

/-- R175: the seeds are taken from the folded state. -/
theorem State.RunProgress.enter_mix (h : s.RunProgress) (hp : s.phase = .seed) :
    ((s.takeSeeds.setK 0).enter .mix).RunProgress where
  lenFits := fun _ => h.lenFits (by simp [hp])
  noRace := fun _ => h.noRace (by simp [hp])
  folding := fun hq => by cases hq
  folded := fun hq => by cases hq
  mixing := fun _ => ⟨Nat.zero_le 8, congrArg seedsOf (h.folded hp), h.folded hp⟩
  mixed := fun hq => by cases hq

/-- R176: a mix step does the mixing round that `K` counts. -/
theorem State.RunProgress.mixStep (h : s.RunProgress) (hp : s.phase = .mix) (hk : s.k.toNat < 8) :
    ((s.mixSeed s.k.toNat).setK (s.k + 1)).RunProgress := by
  obtain ⟨-, hseeds, hacc⟩ := h.mixing hp
  refine { h with folding := ?_, folded := ?_, mixing := fun _ => ⟨?_, hseeds, ?_⟩, mixed := ?_ }
  · intro hq
    simp [hp] at hq
  · intro hq
    simp [hp] at hq
  · rw [State.setK_k, State.toNat_k_add_one hk]
    exact hk
  · rw [State.setK_k, State.toNat_k_add_one hk, State.setK_acc, State.mixSeed_acc, hseeds, hacc]
    rfl
  · intro hq
    simp [hp] at hq

theorem State.RunProgress.enter_emit (h : s.RunProgress) (hp : s.phase = .mix) (hk : s.k = 8) :
    (s.enter .emit).RunProgress where
  lenFits := fun _ => h.lenFits (by simp [hp])
  noRace := fun _ => h.noRace (by simp [hp])
  folding := fun hq => by cases hq
  folded := fun hq => by cases hq
  mixing := fun hq => by cases hq
  mixed := fun _ => by
    obtain ⟨-, -, hacc⟩ := h.mixing hp
    rwa [hk] at hacc

theorem State.RunProgress.sequencerTurn (h : s.RunProgress) (hstep : sequencerTurn s = .next t) : t.RunProgress := by
  obtain ⟨-, rfl⟩ | ⟨hp, ho, ws, hws, rfl⟩ | ⟨hp, ho, rfl⟩ | ⟨hp, rfl⟩ | ⟨hp, hk, rfl⟩ | ⟨hp, hk, rfl⟩ | ⟨-, rfl⟩ :=
    sequencerTurn_eq_next hstep
  · exact h
  · exact h.absorbLanes hp ho hws
  · exact h.enter_seed hp ho
  · exact h.enter_mix hp
  · exact h.mixStep hp hk
  · exact h.enter_emit hp hk
  · exact .of_idle rfl

theorem State.RunProgress.turnTaken {x : Turn} (h : s.RunProgress) (hx : TurnTaken s x t)
    (hstore : ∀ a bytes, x = .store a bytes → s.phase ≠ .idle → s.len.toNat ≤ a) : t.RunProgress := by
  cases hx with
  | read off size v => exact h.answer v
  | badRead off size => exact (h.reject .access).answer 0
  | rejectedWrite off size v c => exact h.reject c
  | setLen v hi => exact .of_idle hi
  | setOff v hi => exact .of_idle hi
  | command i hi hdone => exact .carriedOut hi hdone
  | store a bytes _ => exact h.storeBytes bytes (hstore a bytes rfl)
  | reset => exact .of_idle rfl
  | sequencer hstep => exact h.sequencerTurn hstep

/-! ### The statements -/

/-- Settles O46, by the turn that the step takes. -/
theorem stepKeepsRunProgress : Obligations.StepKeepsRunProgress := by
  intro s t h hmove hstep
  obtain ⟨-, hseq⟩ | ⟨x, xs, hs, hx⟩ := step_eq_next hstep
  · exact h.sequencerTurn hseq
  · exact (h.withSchedule xs).turnTaken hx fun a bytes heq => hmove a bytes xs (heq ▸ hs)

/-- Settles O47: no race is on record, so the emit step serializes the mixed accumulators. -/
theorem runInProgressEmitsDigest : Obligations.RunInProgressEmitsDigest := by
  intro s t h hp hstep
  rw [sequencerTurn_of_emit hp, State.settleRaces_of_no_races s (h.noRace (by simp [hp]))] at hstep
  cases hstep
  exact ⟨rfl, rfl, congrArg digestBytes (h.mixed hp)⟩

end Sys2Proof.Machine
end

section
/-! PROOFS. The operations one after the other (41_fold.md, 43_mix.md, 30_encoding.md section 5): the chunks folded so
far and the mixing rounds done so far as states, and the sequences of operations that lead through them. -/

namespace Sys2Proof.Machine

variable {s t : State}

/-! ### Sequences of operations -/

theorem runOps_cons {i : Instr} (h : exec i s = .next t) (is : List Instr) : runOps (i :: is) s = runOps is t := by
  rw [runOps, h]

theorem runOps_append {is : List Instr} (h : runOps is s = .next t) (js : List Instr) :
    runOps (is ++ js) s = runOps js t := by
  induction is generalizing s with
  | nil =>
    cases h
    rfl
  | cons i is ih =>
    rw [runOps] at h
    split at h
    · next u hu =>
      rw [List.cons_append, runOps_cons hu]
      exact ih h
    all_goals cases h

/-! ### The chunks folded so far -/

/-- The lanes of the last of the first `n` chunks, zero when there is none. -/
def lastLanes (f : Nat → Byte) : Nat → Quad Word
  | 0 => quadOf 0
  | n + 1 => lanesAt f (32 * n)

/-- The state with the first `n` chunks of the input loaded, folded and passed over (R122, R174). -/
def State.afterChunks (s : State) (n : Nat) : State :=
  { s with
    acc := foldChunks (zeroExtended s.inputBytes) n
    lanes := lastLanes (zeroExtended s.inputBytes) n
    off := BitVec.ofNat 64 (32 * n) }

theorem State.absorbLanes_afterChunks (s : State) (n : Nat) :
    (s.afterChunks n).absorbLanes (lanesAt (zeroExtended s.inputBytes) (32 * n)) = s.afterChunks (n + 1) := by
  have hoff : BitVec.ofNat 64 (32 * n) + 32 = BitVec.ofNat 64 (32 * (n + 1)) := by
    rw [Nat.mul_succ, BitVec.ofNat_add]
    rfl
  simp only [State.absorbLanes, State.afterChunks, hoff, foldChunks, lastLanes]

/-- R7: `OFF` has not wrapped at any chunk of an input that fits. -/
theorem State.toNat_afterChunks_off (hl : s.LenFits) {n : Nat} (hn : n ≤ chunkCount s.len.toNat) :
    (s.afterChunks n).off.toNat = 32 * n := by
  have hfit : s.len.toNat ≤ s.cfg.lenMax.val := hl
  have hmax : s.cfg.lenMax.val < 18446744073709551584 := s.cfg.lenMax.isLt
  unfold chunkCount at hn
  exact Nat.mod_eq_of_lt (by omega)

/-- The next chunk of a written input loads its lanes. -/
theorem State.chunkLanes_afterChunks (hw : s.InputWritten) (hl : s.LenFits) {n : Nat}
    (hn : n ≤ chunkCount s.len.toNat) :
    chunkLanes (s.afterChunks n).commandByte (s.afterChunks n).len.toNat (s.afterChunks n).off.toNat =
      some (lanesAt (zeroExtended s.inputBytes) (32 * n)) := by
  rw [State.toNat_afterChunks_off hl hn, State.zeroExtended_inputBytes]
  exact chunkLanes_of_written fun a _ _ ha => hw a ha

/-- R122: ABSORB folds the next chunk of a written input. -/
theorem exec_absorb_afterChunks (hi : s.phase = .idle) (hl : s.LenFits) (hw : s.InputWritten) {n : Nat}
    (hn : n ≤ chunkCount s.len.toNat) : exec .absorb (s.afterChunks n) = .next (s.afterChunks (n + 1)) := by
  rw [exec_absorb_of_accepted (s := s.afterChunks n) hi hl, withChunk_of_some (State.chunkLanes_afterChunks hw hl hn),
    State.absorbLanes_afterChunks]

theorem runOps_absorbs_afterChunks (hi : s.phase = .idle) (hl : s.LenFits) (hw : s.InputWritten) (k n : Nat)
    (hn : n + k ≤ chunkCount s.len.toNat) :
    runOps (List.replicate k .absorb) (s.afterChunks n) = .next (s.afterChunks (n + k)) := by
  induction k generalizing n with
  | zero => rfl
  | succ k ih =>
    rw [List.replicate_succ, runOps_cons (exec_absorb_afterChunks hi hl hw (by omega)), ih (n + 1) (by omega),
      Nat.add_right_comm, Nat.add_assoc]

/-- R95: an IDLE engine accepts CLR, which leaves no chunk folded. -/
theorem exec_clr_of_idle (hi : s.phase = .idle) : exec .clr s = .next (s.clearCall.afterChunks 0) :=
  whenIdle_of_idle hi _

/-- R123: CLR and as many ABSORBs as the input has chunks fold the whole input. -/
theorem runOps_clr_absorbs (hi : s.phase = .idle) (hl : s.LenFits) (hw : s.InputWritten) :
    runOps (.clr :: List.replicate (chunkCount s.len.toNat) .absorb) s =
      .next (s.clearCall.afterChunks (chunkCount s.len.toNat)) := by
  rw [runOps_cons (exec_clr_of_idle hi)]
  simpa only [Nat.zero_add] using
    runOps_absorbs_afterChunks (s := s.clearCall) hi hl hw (chunkCount s.len.toNat) 0 (by simp)

/-! ### The mixing rounds done so far -/

/-- The state with the first `n` mixing rounds done on the accumulators (R145). -/
def State.afterRounds (s : State) (n : Nat) : State := { s with acc := mixRounds s.cfg.gen s.acc n }

theorem State.mixSeed_afterRounds (hs : s.seeds = seedsOf s.acc) (n : Nat) :
    (s.afterRounds n).mixSeed n = s.afterRounds (n + 1) := by
  simp only [State.mixSeed, State.xorAcc, State.afterRounds, mixRounds, hs]

/-- R145: the eight iterations in order do the eight mixing rounds on the accumulators that the seeds are the halves
of. -/
theorem runOps_mixAll (hi : s.phase = .idle) (hs : s.seeds = seedsOf s.acc) :
    runOps mixAll s = .next (s.afterRounds 8) := by
  have hmix : ∀ (k : BitVec 3) (is : List Instr),
      runOps (.mix k :: is) (s.afterRounds k.toNat) = runOps is (s.afterRounds (k.toNat + 1)) := fun k is => by
    rw [runOps_cons (exec_mix_of_idle (s := s.afterRounds k.toNat) k hi), State.mixSeed_afterRounds hs]
  calc runOps mixAll (s.afterRounds 0)
    _ = runOps [.mix 1, .mix 2, .mix 3, .mix 4, .mix 5, .mix 6, .mix 7] (s.afterRounds 1) := hmix 0 _
    _ = runOps [.mix 2, .mix 3, .mix 4, .mix 5, .mix 6, .mix 7] (s.afterRounds 2) := hmix 1 _
    _ = runOps [.mix 3, .mix 4, .mix 5, .mix 6, .mix 7] (s.afterRounds 3) := hmix 2 _
    _ = runOps [.mix 4, .mix 5, .mix 6, .mix 7] (s.afterRounds 4) := hmix 3 _
    _ = runOps [.mix 5, .mix 6, .mix 7] (s.afterRounds 5) := hmix 4 _
    _ = runOps [.mix 6, .mix 7] (s.afterRounds 6) := hmix 5 _
    _ = runOps [.mix 7] (s.afterRounds 7) := hmix 6 _
    _ = .next (s.afterRounds 8) := hmix 7 []

theorem runOps_seed_mixAll (hi : s.phase = .idle) :
    runOps (.seed :: mixAll) s = .next (s.takeSeeds.afterRounds 8) := by
  rw [runOps_cons (exec_seed_of_idle hi)]
  exact runOps_mixAll (s := s.takeSeeds) hi rfl

theorem runOps_seed_mixAll_emit (hi : s.phase = .idle) :
    runOps ([.seed] ++ (mixAll ++ [.emit])) s = .next (s.takeSeeds.afterRounds 8).emitDigest := by
  rw [← List.append_assoc, List.singleton_append, runOps_append (runOps_seed_mixAll hi)]
  exact runOps_cons (exec_emit_of_idle (s := s.takeSeeds.afterRounds 8) hi) []

/-- R145: two mixing iterations exchanged. -/
theorem State.mixSeed_comm (s : State) (m n : Nat) : (s.mixSeed m).mixSeed n = (s.mixSeed n).mixSeed m := by
  simp only [State.mixSeed, State.xorAcc, quadXor_right_comm]

/-- R214: a mixing iteration undoes one with the same seed. -/
theorem State.mixSeed_mixSeed_of_eq {m n : Nat} (h : seedGet s.seeds m = seedGet s.seeds n) :
    (s.mixSeed m).mixSeed n = s := by
  simp only [State.mixSeed, State.xorAcc, h, quadXor_quadXor_self]

/-- Two MIX operations exchanged: while BUSY both are the same reject. -/
theorem runOps_mix_swap (k l : BitVec 3) (is : List Instr) (s : State) :
    runOps (.mix k :: .mix l :: is) s = runOps (.mix l :: .mix k :: is) s := by
  have htwo : ∀ k l : BitVec 3, s.phase = .idle →
      runOps (.mix k :: .mix l :: is) s = runOps is ((s.mixSeed k.toNat).mixSeed l.toNat) := fun k l hi => by
    rw [runOps_cons (exec_mix_of_idle k hi), runOps_cons (exec_mix_of_idle (s := s.mixSeed k.toNat) l hi)]
  by_cases hi : s.phase = .idle
  · rw [htwo k l hi, htwo l k hi, State.mixSeed_comm]
  · simp only [runOps, exec_of_busy _ hi, exec_of_busy _ (s := s.reject .busy) hi]

theorem runOps_mix_perm {ks ls : List (BitVec 3)} (h : ks.Perm ls) (s : State) :
    runOps (ks.map Instr.mix) s = runOps (ls.map Instr.mix) s := by
  induction h generalizing s with
  | nil => rfl
  | cons k _ ih => simp only [List.map_cons, runOps, ih]
  | swap k l ks => exact runOps_mix_swap l k _ s
  | trans _ _ ih₁ ih₂ => exact (ih₁ s).trans (ih₂ s)

/-! ### The statements -/

/-- Settles O49: LDCHUNK, FOLD and the write of `OFF` make up `absorbLanes`, and every ABSORB folds one more chunk. -/
theorem absorbsFoldTheInput : Obligations.AbsorbsFoldTheInput := by
  refine ⟨fun s t hi hl h => ?_, fun s hi hl hw => ?_⟩
  · rw [exec_absorb_of_accepted hi hl]
    cases hload : chunkLanes s.commandByte s.len.toNat s.off.toNat with
    | none =>
      rw [runOps, exec_ldchunk_of_accepted hi hl, withChunk_of_none hload] at h
      cases h
    | some ws =>
      have hldchunk : exec .ldchunk s = .next (s.loadLanes ws) := by
        rw [exec_ldchunk_of_accepted hi hl, withChunk_of_some hload]
      have hfold : exec .fold (s.loadLanes ws) = .next ((s.loadLanes ws).xorAcc ws) :=
        whenIdle_of_idle (s := s.loadLanes ws) hi _
      rw [runOps_cons hldchunk, runOps_cons hfold] at h
      cases h
      rw [withChunk_of_some hload, hostWrite_off, writeWhenIdle_of_idle (s := (s.loadLanes ws).xorAcc ws) hi]
      rfl
  · refine ⟨_, runOps_clr_absorbs hi hl hw, ?_, State.toNat_afterChunks_off (s := s.clearCall) hl (Nat.le_refl _),
      rfl, hi⟩
    exact s.foldState_inputBytes.symm

/-- Settles O50: the folded state of the input, its eight mixing rounds, and the digest of the result. -/
theorem singleOperationsGiveDigest : Obligations.SingleOperationsGiveDigest := by
  intro s hi hl hw
  refine ⟨((s.clearCall.afterChunks (chunkCount s.len.toNat)).takeSeeds.afterRounds 8).emitDigest, ?_, ?_, rfl, rfl, rfl⟩
  · rw [List.append_assoc, List.append_assoc, runOps_append (runOps_clr_absorbs hi hl hw)]
    exact runOps_seed_mixAll_emit (s := s.clearCall.afterChunks _) hi
  · rw [digest, s.foldState_inputBytes]
    rfl

/-- Settles O51: the eight mixing rounds on the accumulators, word by word, which leave zero as it is. -/
theorem wholeMixPass : Obligations.WholeMixPass := by
  intro s hi
  refine ⟨s.takeSeeds.afterRounds 8, runOps_seed_mixAll hi, rfl, fun j => ?_, fun hzero => ?_⟩
  · simp only [State.afterRounds, mixRounds, quadGet_quadXor]
    rfl
  · simp only [State.afterRounds, State.takeSeeds_acc, hzero, mixRounds_zero]

/-- Settles O52: the exclusive OR commutes, and equal mix words cancel. -/
theorem mixOrderDoesNotMatter : Obligations.MixOrderDoesNotMatter := by
  refine ⟨fun s ks ls h => runOps_mix_perm h s, fun s k l hi h => ?_⟩
  rw [runOps_cons (exec_mix_of_idle k hi), runOps_cons (exec_mix_of_idle (s := s.mixSeed k.toNat) l hi),
    State.mixSeed_mixSeed_of_eq h]
  rfl

end Sys2Proof.Machine
end

section
/-! PROOFS. The whole RUN (45_run.md section 3): from its acceptance the sequencer goes through the chunks and the mixing
rounds to the digest, BUSY and without a digest before its last step. -/

namespace Sys2Proof.Machine

variable {s t u : State} {m n : Nat}

/-! ### Runs of the machine -/

theorem run_of_next {M : Host.Core} {s t : M.State} (h : M.step s = .next t) (n : Nat) :
    M.run (n + 1) s = M.run n t := by
  simp only [Host.Core.run, h]

theorem run_add {M : Host.Core} {s t : M.State} {m : Nat} (h : M.run m s = .next t) (n : Nat) :
    M.run (m + n) s = M.run n t := by
  induction m generalizing s with
  | zero =>
    cases h
    rw [Nat.zero_add]
  | succ m ih =>
    rw [Host.Core.run] at h
    split at h
    · next hstep => rw [Nat.succ_add, run_of_next hstep, ih h]
    all_goals cases h

/-- A step of the machine is the first of its run. -/
theorem run_succ (h : step s = .next t) (n : Nat) : Sys2Proof.core.run (n + 1) s = Sys2Proof.core.run n t :=
  run_of_next (M := Sys2Proof.core) h n

/-- R217: BUSY, with no digest to show. -/
structure State.ShowsNoDigest (s : State) : Prop where
  busy : s.phase ≠ .idle
  notValid : s.dvalid = false
  zero : s.dig = zeroBytes32

/-- `n` steps lead from `s` to `t`, BUSY with no digest to show before the last of them. -/
structure LeadsTo (n : Nat) (s t : State) : Prop where
  ends : Sys2Proof.core.run n s = .next t
  before : ∀ k, k < n → ∃ v, Sys2Proof.core.run k s = .next v ∧ v.ShowsNoDigest

theorem LeadsTo.refl (s : State) : LeadsTo 0 s s := ⟨rfl, fun _ hk => absurd hk (Nat.not_lt_zero _)⟩

theorem LeadsTo.trans (hst : LeadsTo m s t) (htu : LeadsTo n t u) : LeadsTo (m + n) s u := by
  refine ⟨(run_add (M := Sys2Proof.core) hst.ends n).trans htu.ends, fun k hk => ?_⟩
  by_cases hkm : k < m
  · exact hst.before k hkm
  · obtain ⟨j, rfl⟩ := Nat.exists_eq_add_of_le (Nat.not_lt.mp hkm)
    rw [run_add (M := Sys2Proof.core) hst.ends]
    exact htu.before j (by omega)

/-! ### A RUN that nothing disturbs -/

/-- The host has no move left, no store has raced with the RUN, and no digest is shown. -/
structure State.Undisturbed (s : State) : Prop where
  noTurn : s.schedule = []
  noRace : s.races = []
  notValid : s.dvalid = false
  zero : s.dig = zeroBytes32

theorem State.Undisturbed.afterChunks (h : s.Undisturbed) (n : Nat) : (s.afterChunks n).Undisturbed := { h with }

theorem State.Undisturbed.afterRounds (h : s.Undisturbed) (n : Nat) : (s.afterRounds n).Undisturbed := { h with }

theorem State.Undisturbed.takeSeeds (h : s.Undisturbed) : s.takeSeeds.Undisturbed := { h with }

theorem State.Undisturbed.setK (h : s.Undisturbed) (k : BitVec 4) : (s.setK k).Undisturbed := { h with }

theorem State.Undisturbed.enter (h : s.Undisturbed) (ph : Phase) : (s.enter ph).Undisturbed := { h with }

/-- A step of the sequencer in a RUN that nothing disturbs. -/
theorem State.Undisturbed.leadsTo (h : s.Undisturbed) (hb : s.phase ≠ .idle) (hstep : sequencerTurn s = .next t) :
    LeadsTo 1 s t := by
  have hnext : step s = .next t := by
    rw [step, nextTurn, h.noTurn]
    exact hstep
  refine ⟨run_succ hnext 0, fun k hk => ?_⟩
  obtain rfl := Nat.lt_one_iff.mp hk
  exact ⟨s, rfl, hb, h.notValid, h.zero⟩

/-! ### The stages of a RUN that nothing disturbs -/

/-- R174: a fold step for each chunk of a written input. -/
theorem leadsTo_afterChunks (h : s.Undisturbed) (hp : s.phase = .fold) (hl : s.LenFits) (hw : s.InputWritten)
    (hn : n ≤ chunkCount s.len.toNat) : LeadsTo n (s.afterChunks 0) (s.afterChunks n) := by
  induction n with
  | zero => exact .refl _
  | succ n ih =>
    have hn' : n ≤ chunkCount s.len.toNat := Nat.le_of_succ_le hn
    have hbelow : (s.afterChunks n).off.toNat < (s.afterChunks n).len.toNat := by
      rw [State.toNat_afterChunks_off hl hn']
      show 32 * n < s.len.toNat
      unfold chunkCount at hn
      omega
    have hload : sequencerTurn (s.afterChunks n) = .next (s.afterChunks (n + 1)) := by
      rw [sequencerTurn_of_fold_lt (s := s.afterChunks n) hp hbelow, State.runByte_of_no_races (h.afterChunks n).noRace,
        withChunk_of_some (State.chunkLanes_afterChunks hw hl hn'), State.absorbLanes_afterChunks]
    exact (ih hn').trans ((h.afterChunks n).leadsTo (by simp [State.afterChunks, hp]) hload)

/-- R176: a mix step for each of the eight mixing rounds. -/
theorem leadsTo_afterRounds (h : s.Undisturbed) (hp : s.phase = .mix) (hs : s.seeds = seedsOf s.acc) (hn : n ≤ 8) :
    LeadsTo n ((s.afterRounds 0).setK 0) ((s.afterRounds n).setK (BitVec.ofNat 4 n)) := by
  induction n with
  | zero => exact .refl _
  | succ n ih =>
    have hk : (BitVec.ofNat 4 n).toNat = n := Nat.mod_eq_of_lt (by omega)
    have hmix : sequencerTurn ((s.afterRounds n).setK (BitVec.ofNat 4 n)) =
        .next ((s.afterRounds (n + 1)).setK (BitVec.ofNat 4 (n + 1))) := by
      have hlow : ((s.afterRounds n).setK (BitVec.ofNat 4 n)).k.toNat < 8 := hk.trans_lt hn
      rw [sequencerTurn_of_mix_lt (s := (s.afterRounds n).setK (BitVec.ofNat 4 n)) hp hlow, State.setK_k, hk,
        BitVec.ofNat_add, ← State.mixSeed_afterRounds hs]
      rfl
    exact (ih (Nat.le_of_succ_le hn)).trans
      (((h.afterRounds n).setK _).leadsTo (by simp [State.afterRounds, hp]) hmix)

/-- The state at the end of an undisturbed RUN that was accepted in `s`. -/
def State.afterRun (s : State) : State :=
  let folded := s.startRun.afterChunks (chunkCount s.len.toNat)
  ((folded.takeSeeds.afterRounds 8).setK 8).emitDigest.enter .idle

/-- R181: the sequencer ends an undisturbed RUN of `n` chunks after `n + 12` steps. -/
theorem leadsTo_afterRun (hs : s.schedule = []) (hl : s.LenFits) (hw : s.InputWritten) :
    LeadsTo (chunkCount s.len.toNat + 12) s.startRun s.afterRun := by
  have hrun : s.startRun.Undisturbed := ⟨hs, rfl, rfl, rfl⟩
  have hfold := leadsTo_afterChunks hrun rfl hl hw (Nat.le_refl _)
  generalize hfolded : s.startRun.afterChunks (chunkCount s.startRun.len.toNat) = folded at hfold
  have hquiet : folded.Undisturbed := hfolded ▸ hrun.afterChunks _
  have hphase : folded.phase = .fold := hfolded ▸ rfl
  have hpast : folded.len.toNat ≤ folded.off.toNat := by
    rw [← hfolded, State.toNat_afterChunks_off (s := s.startRun) hl (Nat.le_refl _)]
    exact le_mul_chunkCount s.len.toNat
  have hend : LeadsTo 1 folded (folded.enter .seed) :=
    hquiet.leadsTo (by simp [hphase]) (sequencerTurn_of_fold_le hphase hpast)
  have hseed : LeadsTo 1 (folded.enter .seed) ((folded.takeSeeds.setK 0).enter .mix) :=
    (hquiet.enter .seed).leadsTo (by simp) (sequencerTurn_of_seed rfl)
  have hmix : LeadsTo 8 ((folded.takeSeeds.setK 0).enter .mix)
      (((folded.takeSeeds.enter .mix).afterRounds 8).setK 8) :=
    leadsTo_afterRounds (hquiet.takeSeeds.enter .mix) rfl rfl (Nat.le_refl 8)
  have hmixed : LeadsTo 1 (((folded.takeSeeds.enter .mix).afterRounds 8).setK 8)
      (((folded.takeSeeds.afterRounds 8).setK 8).enter .emit) :=
    (((hquiet.takeSeeds.enter .mix).afterRounds 8).setK 8).leadsTo nofun (sequencerTurn_of_mix_eq rfl rfl)
  have hemit : LeadsTo 1 (((folded.takeSeeds.afterRounds 8).setK 8).enter .emit)
      (((folded.takeSeeds.afterRounds 8).setK 8).emitDigest.enter .idle) := by
    refine (((hquiet.takeSeeds.afterRounds 8).setK 8).enter .emit).leadsTo (by simp) ?_
    rw [sequencerTurn_of_emit rfl, State.settleRaces_of_no_races _ (by exact hquiet.noRace)]
    rfl
  have hall := ((((hfold.trans hend).trans hseed).trans hmix).trans hmixed).trans hemit
  rw [← hfolded] at hall
  exact hall

/-- The lanes that a RUN leaves are those of the last chunk, zero for the empty input. -/
theorem lastLanes_chunkCount (f : Nat → Byte) (v : Word) :
    lastLanes f (chunkCount v.toNat) = if v = 0 then quadOf 0 else lanesAt f (32 * (chunkCount v.toNat - 1)) := by
  by_cases hv : v = 0
  · subst hv
    rfl
  · have hpos : v.toNat ≠ 0 := fun h => hv (BitVec.eq_of_toNat_eq h)
    obtain ⟨n, hn⟩ : ∃ n, chunkCount v.toNat = n + 1 := Nat.exists_eq_succ_of_ne_zero (by unfold chunkCount; omega)
    rw [if_neg hv, hn]
    rfl

/-! ### The statements -/

/-- Settles O48: the acceptance step, and the undisturbed RUN from there. -/
theorem runComputesDigest : Obligations.RunComputesDigest := by
  intro s hs hi hl hw
  have haccept : step s = .next (s.withSchedule []).startRun := by
    rw [step_of_schedule_cons hs, takeTurn, hostWrite_cmd]
    exact (command_encode (s := s.withSchedule []) .run hi).trans (exec_run_of_accepted (s := s.withSchedule []) hi hl)
  have hrun := leadsTo_afterRun (s := s.withSchedule []) rfl hl hw
  refine ⟨?_, fun n hpos hn => ?_⟩
  · rw [run_succ haccept, ← lastLanes_chunkCount, digest, s.foldState_inputBytes]
    exact hrun.ends
  · obtain ⟨k, rfl⟩ := Nat.exists_eq_add_of_le' hpos
    obtain ⟨v, hv, hbusy, hnot, hzero⟩ := hrun.before k (Nat.lt_of_succ_lt_succ hn)
    exact ⟨v, (run_succ haccept k).trans hv, hbusy, hnot, hzero⟩

/-- Settles O34: the RUN of the empty input, whose folded state is zero. -/
theorem runAfterResetGivesZeros : Obligations.RunAfterResetGivesZeros := by
  refine fun c => ⟨State.statusWord_resetWith c, ?_⟩
  obtain ⟨hrun, -⟩ := runComputesDigest ((State.resetWith c).withCommand 0x08) rfl rfl (Nat.zero_le _)
    fun a ha => absurd ha (Nat.not_lt_zero a)
  have hcount : chunkCount ((State.resetWith c).withCommand 0x08).len.toNat = 0 :=
    (by decide : chunkCount 0 = 0)
  have hfold : foldState ((State.resetWith c).withCommand 0x08).inputBytes = quadOf 0 := foldState_nil
  rw [hcount, digest, hfold, mixRounds_zero] at hrun
  exact hrun

end Sys2Proof.Machine
end

section
/-! PROOFS. The default generator (43_mix.md section 3): it sees the absolute value of its seed only, and its samples
read the table as seeding left it. -/

namespace Sys2Proof.Machine

/-! ### The sign of the seed -/

/-- R147: the seed enters through its absolute value. -/
theorem genSub55_congr {s r : Int} (h : sub55Sub s = sub55Sub r) : genSub55 s = genSub55 r := by
  simp only [genSub55, sub55Table, h]

theorem sub55Sub_of_ne {s : Int} (h : s ≠ -2147483648) : sub55Sub s = s.natAbs := if_neg h

theorem toInt_ne_of_ne {s : Seed} (h : s ≠ 0x80000000) : s.toInt ≠ -2147483648 := fun hs =>
  h (BitVec.eq_of_toInt_eq hs)

/-! ### The samples -/

/-- R148: `n` samples after seeding the cyclic indices stand at `n` and `n + 21`; they wrap at 56 only. -/
theorem sub55Next_of_lt {n : Nat} (h : n < 55) : sub55Next n = n + 1 := if_neg (by omega)

theorem getD_set_of_lt {A : List Seed} {i j : Nat} (v : Seed) (h : i < j) : (A.set i v).getD j 0 = A.getD j 0 := by
  rw [List.getD_eq_getElem?_getD, List.getElem?_set_ne (Nat.ne_of_lt h), ← List.getD_eq_getElem?_getD]

/-- R148, R151 e: a sample is written back at an index that no later sample reads before the indices wrap, so each of
the next `left` samples reads the table `A` as it is. -/
theorem getD_sub55Bytes (A : List Seed) {left n i : Nat} (hn : n + 21 + left ≤ 55) (hi : i < left) :
    (sub55Bytes left n (n + 21) A).getD i 0 =
      (sub55Correct (sub55Clip (A.getD (n + i + 1) 0 - A.getD (n + i + 22) 0))).setWidth 8 := by
  induction left generalizing n i A with
  | zero => omega
  | succ left ih =>
    rw [sub55Bytes, sub55Next_of_lt (by omega), sub55Next_of_lt (by omega)]
    cases i with
    | zero => rfl
    | succ i =>
      rw [List.getD_cons_succ, Nat.add_right_comm n 21 1, ih _ (by omega) (Nat.lt_of_succ_lt_succ hi),
        getD_set_of_lt _ (by omega), getD_set_of_lt _ (by omega)]
      congr 6 <;> omega

/-! ### The statements -/

/-- Settles O53: `-s` has the absolute value of `s`, and the most negative seed is mapped to the greatest. -/
theorem defaultGeneratorLosesSign : Obligations.DefaultGeneratorLosesSign := by
  refine ⟨fun s hs => genSub55_congr ?_, genSub55_congr rfl⟩
  have hneg : (-s).toInt = -s.toInt := BitVec.toInt_neg_of_ne_intMin hs
  have hmin := toInt_ne_of_ne hs
  have hmin' : -s.toInt ≠ -2147483648 := by
    have := BitVec.toInt_lt (x := s)
    norm_num at this
    omega
  rw [hneg, sub55Sub_of_ne hmin', sub55Sub_of_ne hmin, Int.natAbs_neg]

/-- Settles O54: sample `t` of the thirty-two reads entries `t + 1` and `t + 22`, below the wrap at 56. -/
theorem defaultGeneratorReadsSeededTable : Obligations.DefaultGeneratorReadsSeededTable := by
  intro s t ht
  have hsample := getD_sub55Bytes (sub55Table s) (n := 0) (left := 32) (by decide) ht
  rw [genSub55, byteOf_bytes32At _ _ ht]
  simpa only [Nat.zero_add] using hsample

end Sys2Proof.Machine
end

section
/-! PROOFS. What the operations leave alone, which of them look at `LEN`, and what the loader reads (60_exceptions.md
section 2, 20_memory.md sections 1 and 2). -/

namespace Sys2Proof.Machine

variable {s t : State}

/-! ### The operations that do not look at `LEN` -/

/-- R193: an operation that does not read the input memory does the same whatever `LEN` is. -/
theorem exec_setLen {i : Instr} (hld : i ≠ .ldchunk) (hab : i ≠ .absorb) (hrun : i ≠ .run) (hi : s.phase = .idle)
    (v : Word) : ∃ t, exec i s = .next t ∧ exec i (s.setLen v) = .next (t.setLen v) := by
  have hi' : (s.setLen v).phase = .idle := hi
  cases i with
  | ldchunk => exact absurd rfl hld
  | absorb => exact absurd rfl hab
  | run => exact absurd rfl hrun
  | clr => exact ⟨_, whenIdle_of_idle hi _, whenIdle_of_idle hi' _⟩
  | fold => exact ⟨_, whenIdle_of_idle hi _, whenIdle_of_idle hi' _⟩
  | seed => exact ⟨_, whenIdle_of_idle hi _, whenIdle_of_idle hi' _⟩
  | mix k => exact ⟨_, whenIdle_of_idle hi _, whenIdle_of_idle hi' _⟩
  | emit => exact ⟨_, whenIdle_of_idle hi _, whenIdle_of_idle hi' _⟩

/-- R60: a store of one byte completes exactly where the byte exists. -/
theorem hostStore_byte_iff (s : State) (a : Nat) (v : Byte) :
    (∃ t, hostStore a [v] s = .next t) ↔ a < s.cfg.lenMax.val := by
  constructor
  · rintro ⟨t, h⟩
    obtain ⟨hr, -⟩ := hostStore_eq_next h
    simpa using hr
  · intro h
    exact ⟨_, if_pos (.inr h)⟩

/-! ### What the loader reads -/

/-- The state with another input memory. -/
def State.withInput (s : State) (m : Memory) : State := { s with input := m }

/-- Two states that differ in the input memory only have outcomes that do: both fault at an unwritten byte, or both
complete. -/
def SameButInput (m : Memory) (r r' : Result) : Prop :=
  (r = .fault .unwrittenInput ∧ r' = .fault .unwrittenInput) ∨ ∃ t, r = .next t ∧ r' = .next (t.withInput m)

theorem SameButInput.next (m : Memory) (t : State) : SameButInput m (.next t) (.next (t.withInput m)) :=
  .inr ⟨t, rfl, rfl⟩

theorem SameButInput.whenIdle {m : Memory} {r r' : Result} (h : SameButInput m r r') :
    SameButInput m (whenIdle s r) (whenIdle (s.withInput m) r') := by
  by_cases hi : s.phase = .idle
  · rwa [whenIdle_of_idle hi, whenIdle_of_idle (s := s.withInput m) hi]
  · rw [whenIdle_of_busy hi, whenIdle_of_busy (s := s.withInput m) hi]
    exact .next m _

theorem SameButInput.whenLenFits {m : Memory} {r r' : Result} (h : SameButInput m r r') :
    SameButInput m (whenLenFits s r) (whenLenFits (s.withInput m) r') := by
  by_cases hl : s.cfg.lenMax.val < s.len.toNat
  · rw [whenLenFits_of_lt hl, whenLenFits_of_lt (s := s.withInput m) hl]
    exact .next m _
  · rwa [whenLenFits_of_le (Nat.not_lt.mp hl), whenLenFits_of_le (s := s.withInput m) (Nat.not_lt.mp hl)]

/-- R64: the loader reads no byte at or above `LEN`. -/
theorem SameButInput.withChunk {m : Memory} {f f' : Nat → Option Byte} {g g' : Quad Word → State}
    (hf : ∀ a, a < s.len.toNat → f' a = f a) (hg : ∀ ws, g' ws = (g ws).withInput m) :
    SameButInput m (withChunk s f g) (withChunk (s.withInput m) f' g') := by
  have hsame : chunkLanes f' s.len.toNat s.off.toNat = chunkLanes f s.len.toNat s.off.toNat := chunkLanes_congr hf _
  cases hload : chunkLanes f s.len.toNat s.off.toNat with
  | none =>
    exact .inl ⟨withChunk_of_none hload, withChunk_of_none (s := s.withInput m) (hsame.trans hload)⟩
  | some ws =>
    refine .inr ⟨g ws, withChunk_of_some hload, ?_⟩
    rw [withChunk_of_some (s := s.withInput m) (hsame.trans hload), hg]

/-! ### The statements -/

/-- Settles O9: both operations load the chunk, and a chunk with an unwritten byte below `LEN` does not load. -/
theorem unwrittenInputStopsTheLoad : Obligations.UnwrittenInputStopsTheLoad := by
  intro s a hi hl hlow hhigh hlen hnone
  have hload : chunkLanes s.commandByte s.len.toNat s.off.toNat = none :=
    chunkLanes_of_unwritten hlow hhigh hlen hnone
  rw [exec_ldchunk_of_accepted hi hl, exec_absorb_of_accepted hi hl]
  exact ⟨withChunk_of_none hload, withChunk_of_none hload⟩

/-- Settles O10: a reject writes `ERR` only, and each operation that is carried out is one of the named updates. -/
theorem operationsLeaveTheRestAlone : Obligations.OperationsLeaveTheRestAlone := by
  intro i s t h
  have hhost := exec_sameHostSide h
  refine ⟨fun a => by rw [hhost.input], exec_keeps_len h, hhost.cfg, hhost.schedule, ?_⟩
  obtain ⟨c, rfl⟩ | ⟨-, hdone⟩ := exec_eq_next h
  · simp +contextual
  · cases hdone <;> simp

/-- Settles O13: the loader of a RUN goes on with the lanes of the bytes as the free choices give them. -/
theorem foldPhaseReadsRacedBytes : Obligations.FoldPhaseReadsRacedBytes := by
  intro s hp ho hw
  rw [sequencerTurn_of_fold_lt hp ho, withChunk_of_some (chunkLanes_of_written hw), State.absorbLanes]

/-- Settles O23: the store's own bound, the write of `LEN`, and the length check of the three readers. -/
theorem lengthIsCheckedByReadersOnly : Obligations.LengthIsCheckedByReadersOnly := by
  refine ⟨hostStore_byte_iff, fun s v hi => ?_, fun c => ?_, fun s hi hl => ⟨?_, ?_, ?_⟩, fun s hi hl => ?_,
    fun i s v hld hab hrun hi => exec_setLen hld hab hrun hi v⟩
  · rw [hostWrite_len, writeWhenIdle_of_idle hi, State.setLen]
  · exact Nat.le_of_lt_succ c.lenMax.isLt
  · exact exec_reader_of_len_too_long (.inl rfl) hi hl
  · exact exec_reader_of_len_too_long (.inr (.inl rfl)) hi hl
  · exact exec_reader_of_len_too_long (.inr (.inr rfl)) hi hl
  · exact ⟨s.startRun, exec_run_of_accepted hi hl, rfl⟩

/-- Settles O35: the three loads go through the same acceptance and read the same bytes below `LEN`. -/
theorem loaderReadsBelowLengthOnly : Obligations.LoaderReadsBelowLengthOnly := by
  intro s m hm
  refine ⟨?_, ?_, fun hp => ?_⟩
  · exact SameButInput.whenIdle (.whenLenFits (.withChunk hm fun _ => rfl))
  · exact SameButInput.whenIdle (.whenLenFits (.withChunk hm fun _ => rfl))
  · show SameButInput m (sequencerTurn s) (sequencerTurn (s.withInput m))
    by_cases ho : s.off.toNat < s.len.toNat
    · rw [sequencerTurn_of_fold_lt hp ho, sequencerTurn_of_fold_lt (s := s.withInput m) hp ho]
      exact .withChunk (fun a ha => congrArg (raceView s.races a) (hm a ha)) fun _ => rfl
    · rw [sequencerTurn_of_fold_le hp (Nat.not_lt.mp ho),
        sequencerTurn_of_fold_le (s := s.withInput m) hp (Nat.not_lt.mp ho)]
      exact .next m _

end Sys2Proof.Machine
end

section
/-! PROOFS. The turns of the total order (10_state.md sections 3 and 5, 70_reset_and_hazards.md): the phases, the
configuration, the registers after finished work, and the host's stores. -/

namespace Sys2Proof.Machine

variable {s t : State}

/-! ### The phases -/

/-- Of the operations RUN alone changes the phase (R172). -/
theorem CarriedOut.phase_cases {i : Instr} (h : CarriedOut s i t) :
    t.phase = s.phase ∨ (i = .run ∧ s.LenFits ∧ t.phase = .fold) := by
  cases h with
  | run hl => exact .inr ⟨rfl, hl, rfl⟩
  | clr | ldchunk | fold | absorb | seed | mix | emit => exact .inl rfl

/-- R27: the sequencer keeps the phase or goes on to the next one. -/
theorem sequencerTurn_phase_cases (h : sequencerTurn s = .next t) :
    t.phase = s.phase ∨ (s.phase = .fold ∧ t.phase = .seed) ∨ (s.phase = .seed ∧ t.phase = .mix) ∨
    (s.phase = .mix ∧ t.phase = .emit) ∨ (s.phase = .emit ∧ t.phase = .idle) := by
  obtain ⟨-, rfl⟩ | ⟨-, -, _, -, rfl⟩ | ⟨hp, -, rfl⟩ | ⟨hp, rfl⟩ | ⟨-, -, rfl⟩ | ⟨hp, -, rfl⟩ | ⟨hp, rfl⟩ :=
    sequencerTurn_eq_next h
  · exact .inl rfl
  · exact .inl rfl
  · exact .inr (.inl ⟨hp, rfl⟩)
  · exact .inr (.inr (.inl ⟨hp, rfl⟩))
  · exact .inl rfl
  · exact .inr (.inr (.inr (.inl ⟨hp, rfl⟩)))
  · exact .inr (.inr (.inr (.inr ⟨hp, rfl⟩)))

/-- A turn that changes the phase is an accepted RUN, the sequencer's, or reset. -/
theorem TurnTaken.phase_cases {x : Turn} (h : TurnTaken s x t) :
    t.phase = s.phase ∨ (x = .write 0x00 8 0x08 ∧ s.phase = .idle ∧ s.LenFits ∧ t.phase = .fold) ∨
    (x = .sequencer ∧ sequencerTurn s = .next t) ∨ (x = .reset ∧ t.phase = .idle) := by
  cases h with
  | read | badRead | rejectedWrite | setLen | setOff => exact .inl rfl
  | command i hi hdone =>
    obtain hkeep | ⟨rfl, hl, hfold⟩ := hdone.phase_cases
    · exact .inl hkeep
    · exact .inr (.inl ⟨rfl, hi, hl, hfold⟩)
  | store a bytes _ => exact .inl (State.storeBytes_same bytes s a).phase
  | reset => exact .inr (.inr (.inr ⟨rfl, rfl⟩))
  | sequencer hstep => exact .inr (.inr (.inl ⟨rfl, hstep⟩))

/-! ### The configuration -/

theorem TurnTaken.keeps_cfg {x : Turn} (h : TurnTaken s x t) : t.cfg = s.cfg := by
  cases h with
  | read | badRead | rejectedWrite | setLen | setOff | reset => rfl
  | command i _ hdone => cases hdone <;> rfl
  | store a bytes _ => exact (State.storeBytes_same bytes s a).cfg
  | sequencer hstep => exact (sequencerTurn_sameHostSide hstep).cfg

/-! ### The registers after finished work -/

/-- R48: `SV1` to `SV4` of the seeds just taken are the accumulators, each half of a word in its place. -/
theorem seedWords_seedsOf (p : Quad Word) : seedWords (seedsOf p) = p := by
  have hhalves : ∀ v : Word, highHalf v ++ lowHalf v = v := fun v =>
    (BitVec.extractLsb'_append_extractLsb'_eq_extractLsb' rfl).trans BitVec.extractLsb'_eq_self
  simp only [seedWords, seedsOf, hhalves]

/-- R49: `D1` to `D4` of the digest just emitted are the accumulators. -/
theorem le64_quadGet_digestBytes (p : Quad Word) (n : Nat) : le64 (quadGet (digestBytes p) n) = quadGet p n := by
  rw [digestBytes, quadGet_quadMap, le64_bytesLE64]

/-! ### A racing store -/

/-- R215: stores only add to the races on record. -/
theorem State.races_suffix_storeBytes (vs : List Byte) (s : State) (a : Nat) :
    s.races <:+ (s.storeBytes a vs).races := by
  induction vs generalizing s a with
  | nil => exact List.suffix_refl _
  | cons v vs ih =>
    have hbyte : s.races <:+ (s.storeByte a v).races := by
      rw [State.storeByte_races]
      split
      · exact List.suffix_cons _ _
      · exact List.suffix_refl _
    exact hbyte.trans (ih (s.storeByte a v) (a + 1))

theorem sequencerTurn_keeps_races (h : sequencerTurn s = .next t) : t.races = s.races := by
  obtain ⟨-, rfl⟩ | ⟨-, -, _, -, rfl⟩ | ⟨-, -, rfl⟩ | ⟨-, rfl⟩ | ⟨-, -, rfl⟩ | ⟨-, -, rfl⟩ | ⟨-, rfl⟩ :=
    sequencerTurn_eq_next h
  all_goals simp

/-- R215: the races of a RUN in progress stay on record through every turn but reset. -/
theorem TurnTaken.races_ne_nil {x : Turn} (h : TurnTaken s x t) (hb : s.phase ≠ .idle) (hr : s.races ≠ [])
    (hx : x ≠ .reset) : t.races ≠ [] := by
  cases h with
  | read | badRead | rejectedWrite => exact hr
  | setLen v hi => exact absurd hi hb
  | setOff v hi => exact absurd hi hb
  | command i hi _ => exact absurd hi hb
  | store a bytes _ => exact fun hnil => hr (List.suffix_nil.mp (hnil ▸ State.races_suffix_storeBytes bytes s a))
  | reset => exact absurd rfl hx
  | sequencer hstep => exact sequencerTurn_keeps_races hstep ▸ hr

/-- U11: after a racing store the loader reads the new byte, or what it would have read before. -/
theorem State.runByte_storeByte_of_race {a : Nat} (hb : s.phase ≠ .idle) (ha : a < s.len.toNat) (v : Byte) (b : Nat) :
    (s.storeByte a v).runByte b =
      if b = a then (if Config.raceTakesNew s.draws then some v else s.runByte a) else s.runByte b := by
  have hrace : s.storeRaces a = true := (s.storeRaces_eq_true a).mpr ⟨hb, ha⟩
  rw [State.runByte, State.storeByte_races, if_pos hrace, raceView_cons, State.storeByte_read]
  by_cases hba : b = a
  · subst hba
    simp only [if_pos, State.runByte]
  · rw [if_neg (Ne.symm hba), if_neg hba, if_neg hba, State.runByte]

/-! ### The fields that a store writes -/

/-- A store writes the input memory and the model's record of the races. -/
theorem SameButStore.eq (h : SameButStore s t) : t = { s with input := t.input, races := t.races, draws := t.draws } := by
  cases t
  obtain ⟨rfl, rfl, rfl, rfl, rfl, rfl, rfl, rfl, rfl, rfl, rfl, rfl, rfl⟩ := h
  rfl

/-! ### The statements -/

/-- Settles O11: the two forms of a sequencer's turn, which does nothing while IDLE. -/
theorem sequencerTakesItsTurns : Obligations.SequencerTakesItsTurns := by
  refine ⟨fun s hs => ?_, fun s ts hs => step_of_schedule_cons hs, fun s hi => ?_⟩
  · rw [step, nextTurn, hs]
  · simp only [sequencerTurn, hi]

/-- Settles O39: a write to `CMD` carries the decoded operation out, which itself rejects while BUSY. -/
theorem stepRunsTheDecodedOperation : Obligations.StepRunsTheDecodedOperation := by
  have hfirst : ∀ (s : State) (ts : List Turn) (w : Word) (i : Instr), s.schedule = .write 0x00 8 w :: ts →
      decode w = .instr i → step s = exec i { s with schedule := ts } := fun s ts w i hs hw => by
    obtain rfl := eq_encode_of_decode hw
    rw [step_of_schedule_cons hs, takeTurn, hostWrite_cmd]
    by_cases hi : s.phase = .idle
    · exact command_encode (s := s.withSchedule ts) i hi
    · exact (command_of_busy (s := s.withSchedule ts) _ hi).trans (exec_of_busy (s := s.withSchedule ts) i hi).symm
  refine ⟨hfirst, fun s w i hw hdec => ?_⟩
  have hword : decode (BitVec.ofNat 64 (w % 2 ^ 64)) = .instr i := by
    unfold decodeTableWord at hdec
    split at hdec
    · split at hdec
      · next hd =>
        cases hdec
        exact hd
      all_goals cases hdec
    · cases hdec
  exact hfirst (s.withFetchWord 64 w) s.schedule _ i rfl hword

/-- Settles O33: the reset turn is `resetEngine`. -/
theorem resetStrikesAtAnyTime : Obligations.ResetStrikesAtAnyTime :=
  fun s => ⟨s.resetEngine, rfl, rfl⟩

/-- Settles O40, by the turn that the step takes. -/
theorem phasesFollowOneOrder : Obligations.PhasesFollowOneOrder := by
  intro s t hstep hne
  obtain ⟨hs, hseq⟩ | ⟨x, xs, hs, hx⟩ := step_eq_next hstep
  · exact .inr (.inl ⟨.inl hs, (sequencerTurn_phase_cases hseq).resolve_left hne⟩)
  · obtain hkeep | ⟨rfl, hi, hl, hfold⟩ | ⟨rfl, hseq⟩ | ⟨rfl, hidle⟩ := hx.phase_cases
    · exact absurd hkeep hne
    · exact .inl ⟨hi, hfold, hl, xs, hs⟩
    · exact .inr (.inl ⟨.inr ⟨xs, hs⟩, (sequencerTurn_phase_cases hseq).resolve_left hne⟩)
    · exact .inr (.inr ⟨⟨xs, hs⟩, hidle⟩)

/-- Settles O42, by the turn that the step takes. -/
theorem configurationIsFixed : Obligations.ConfigurationIsFixed := by
  intro s t hstep
  obtain ⟨-, hseq⟩ | ⟨x, xs, -, hx⟩ := step_eq_next hstep
  · exact (sequencerTurn_sameHostSide hseq).cfg
  · exact hx.keeps_cfg

/-- Settles O30: the snapshot and the digest of the accumulators read back as the accumulators, and the emit step of the
invariant's states leaves `K = 8`, IDLE and a valid digest. -/
theorem registersShowFinishedWork : Obligations.RegistersShowFinishedWork := by
  refine ⟨fun s t hi h j => ?_, fun s t hi h j => ?_, fun s t hinv hp he h => ?_⟩
  · cases (exec_seed_of_idle hi).symm.trans h
    exact congrArg (quadGet · j) (seedWords_seedsOf s.acc)
  · cases (exec_emit_of_idle hi).symm.trans h
    exact le64_quadGet_digestBytes s.acc j
  · cases (sequencerTurn_of_emit hp).symm.trans h
    have hidle : (s.settleRaces.emitDigest.enter .idle).busy = false := (State.busy_eq_false _).mpr rfl
    simp only [State.readReg, State.statusWord, hidle, State.enter_err, State.emitDigest_err, State.settleRaces_err, he,
      State.enter_k, State.emitDigest_k, State.settleRaces_k, hinv.emitK hp, State.enter_phase, State.enter_dvalid,
      State.emitDigest_dvalid]
    decide

/-- Settles O37: the bytes of the store, its frame, and the races it cannot make while IDLE or at or above `LEN`. -/
theorem hostStoreWritesItsBytes : Obligations.HostStoreWritesItsBytes := by
  intro s a bytes hne
  have hpos : bytes.length ≠ 0 := mt List.length_eq_zero_iff.mp hne
  refine ⟨fun hout => if_neg (by omega), fun hin => ⟨s.storeBytes a bytes, if_pos (.inr hin), fun n hn => ?_,
    fun b hb => ?_, (State.storeBytes_same bytes s a).eq, State.storeBytes_no_race bytes⟩⟩
  · rw [State.storeBytes_read, if_pos (by omega), Nat.add_sub_cancel_left]
  · rw [State.storeBytes_read, if_neg (by omega)]

/-- Settles O38: the byte the loader reads after a racing store, the record of the races, and the free digest words. -/
theorem racingStoreIsOldOrNew : Obligations.RacingStoreIsOldOrNew := by
  refine ⟨fun s a v hb ha hl => ?_, fun s t hb hr hstep hnoReset => ?_, fun s hp hr => ?_⟩
  · have hexists : a + [v].length ≤ s.cfg.lenMax.val := Nat.lt_of_lt_of_le ha hl
    have hrace : s.storeRaces a = true := (s.storeRaces_eq_true a).mpr ⟨hb, ha⟩
    refine ⟨s.storeByte a v, if_pos (.inr hexists), ?_, ?_, fun b hba => ?_, ?_, ?_⟩
    · rw [State.storeByte_read, if_pos rfl]
    · rw [State.runByte_storeByte_of_race hb ha, if_pos rfl]
    · rw [State.runByte_storeByte_of_race hb ha, if_neg hba]
    · rw [State.storeByte_races, if_pos hrace]
      exact List.cons_ne_nil _ _
    · rw [State.storeByte_draws, if_pos hrace]
  · obtain ⟨-, hseq⟩ | ⟨x, xs, hs, hx⟩ := step_eq_next hstep
    · exact sequencerTurn_keeps_races hseq ▸ hr
    · exact hx.races_ne_nil (s := s.withSchedule xs) hb hr fun heq => hnoReset xs (heq ▸ hs)
  · rw [sequencerTurn_of_emit hp, State.settleRaces_of_races s hr]
    rfl

end Sys2Proof.Machine
end
